-- ==== Sys2Proof/Word.lean ====
section
/-! DEFINITION. The machine's word, byte and register index types (spec/00_scope.md R6, spec/30_encoding.md R53). -/

namespace Sys2Proof

/-- A 16-bit word: a memory word, a register cell, an instruction (R5 `XLEN`). -/
abbrev Word := BitVec 16

/-- Half of a word: one cell of the model's memory list (log 1). -/
abbrev Byte := BitVec 8

/-- A register index, 0 to 15: the value of an `r` field (R53). -/
abbrev Reg := BitVec 4

end Sys2Proof
end

