-- ==== Sys2Proof/Syntax.lean ====
section
/-! DEFINITION. The instruction set as syntax: one constructor per row of spec/opcode_table.json, in the table's priority order (spec/30_encoding.md R60), operands in the order of the source's operand column (R51). -/

namespace Sys2Proof

/-- The 27 mnemonics, in the order of the encoding table (R60). -/
inductive Mnemonic where
  | halt | read | write | jumpi | loadn | load | store | loadi | storei | popr | pushn
  | addn | nop | mov | add | neg | sub | mul | div | mod
  | jump | call | jeqz | jnez | jgtz | jltz | data
  deriving DecidableEq, Repr

/-- One constructor per row of the table; operands are the values its fields yield (R51): a register
index, or the integer of an address or number field. A `u` field, which the default table has for
addresses, yields 0 to 255 (R54), an `s` field, which it has for numbers, -128 to 127 (R55); a field
of another table may yield any 16-bit value (R56, U2). -/
inductive Instr where
  /-- R80 -/
  | halt
  /-- R82 -/
  | read (r : Reg)
  /-- R83 -/
  | write (r : Reg)
  /-- R120 -/
  | jumpi (addr : Int)
  /-- R90 -/
  | loadn (r : Reg) (n : Int)
  /-- R91 -/
  | load (r : Reg) (addr : Int)
  /-- R92 -/
  | store (r : Reg) (addr : Int)
  /-- R93 -/
  | loadi (rdest raddr : Reg)
  /-- R94 -/
  | storei (rsrc raddr : Reg)
  /-- R95 -/
  | popr (rdest raddr : Reg)
  /-- R96 -/
  | pushn (rsrc raddr : Reg)
  /-- R100 -/
  | addn (r : Reg) (n : Int)
  /-- R81 -/
  | nop
  /-- R101 -/
  | mov (rdest rsrc : Reg)
  /-- R102 -/
  | add (rdest rx ry : Reg)
  /-- R103 -/
  | neg (rdest rx : Reg)
  /-- R104 -/
  | sub (rdest rx ry : Reg)
  /-- R105 -/
  | mul (rdest rx ry : Reg)
  /-- R106 -/
  | div (rdest rx ry : Reg)
  /-- R107 -/
  | mod (rdest rx ry : Reg)
  /-- R121 -/
  | jump (addr : Int)
  /-- R122 -/
  | call (r : Reg) (addr : Int)
  /-- R123 -/
  | jeqz (r : Reg) (addr : Int)
  /-- R126 -/
  | jnez (r : Reg) (addr : Int)
  /-- R124 -/
  | jgtz (r : Reg) (addr : Int)
  /-- R125 -/
  | jltz (r : Reg) (addr : Int)
  /-- R84; the operand is the whole word -/
  | data (word : Word)
  deriving DecidableEq, Repr

/-- The mnemonic of an instruction. -/
def Instr.mnemonic : Instr → Mnemonic
  | .halt => .halt
  | .read _ => .read
  | .write _ => .write
  | .jumpi _ => .jumpi
  | .loadn _ _ => .loadn
  | .load _ _ => .load
  | .store _ _ => .store
  | .loadi _ _ => .loadi
  | .storei _ _ => .storei
  | .popr _ _ => .popr
  | .pushn _ _ => .pushn
  | .addn _ _ => .addn
  | .nop => .nop
  | .mov _ _ => .mov
  | .add _ _ _ => .add
  | .neg _ _ => .neg
  | .sub _ _ _ => .sub
  | .mul _ _ _ => .mul
  | .div _ _ _ => .div
  | .mod _ _ _ => .mod
  | .jump _ => .jump
  | .call _ _ => .call
  | .jeqz _ _ => .jeqz
  | .jnez _ _ => .jnez
  | .jgtz _ _ => .jgtz
  | .jltz _ _ => .jltz
  | .data _ => .data

/-- The operands of an instruction in the order of the operand column (R51): a register by its index
(R53), an address or number as it stands, the word of `data` as signed (R56). -/
def Instr.operands : Instr → List Int
  | .halt => []
  | .read r => [(r.toNat : Int)]
  | .write r => [(r.toNat : Int)]
  | .jumpi addr => [addr]
  | .loadn r n => [(r.toNat : Int), n]
  | .load r addr => [(r.toNat : Int), addr]
  | .store r addr => [(r.toNat : Int), addr]
  | .loadi rdest raddr => [(rdest.toNat : Int), (raddr.toNat : Int)]
  | .storei rsrc raddr => [(rsrc.toNat : Int), (raddr.toNat : Int)]
  | .popr rdest raddr => [(rdest.toNat : Int), (raddr.toNat : Int)]
  | .pushn rsrc raddr => [(rsrc.toNat : Int), (raddr.toNat : Int)]
  | .addn r n => [(r.toNat : Int), n]
  | .nop => []
  | .mov rdest rsrc => [(rdest.toNat : Int), (rsrc.toNat : Int)]
  | .add rdest rx ry => [(rdest.toNat : Int), (rx.toNat : Int), (ry.toNat : Int)]
  | .neg rdest rx => [(rdest.toNat : Int), (rx.toNat : Int)]
  | .sub rdest rx ry => [(rdest.toNat : Int), (rx.toNat : Int), (ry.toNat : Int)]
  | .mul rdest rx ry => [(rdest.toNat : Int), (rx.toNat : Int), (ry.toNat : Int)]
  | .div rdest rx ry => [(rdest.toNat : Int), (rx.toNat : Int), (ry.toNat : Int)]
  | .mod rdest rx ry => [(rdest.toNat : Int), (rx.toNat : Int), (ry.toNat : Int)]
  | .jump addr => [addr]
  | .call r addr => [(r.toNat : Int), addr]
  | .jeqz r addr => [(r.toNat : Int), addr]
  | .jnez r addr => [(r.toNat : Int), addr]
  | .jgtz r addr => [(r.toNat : Int), addr]
  | .jltz r addr => [(r.toNat : Int), addr]
  | .data word => [word.toInt]

end Sys2Proof
end

