-- ==== Sys2Proof/Config.lean ====
section
/-! DEFINITION. What an implementation fixes (spec/00_scope.md R5): sizes, the register reset values, and the TYPES of the two other parameters, the encoding table (its rows are `Config.encTable` in Decode.lean) and the rounding mode of division (its value is `Config.divMode` in Machine/Arithmetic.lean). -/

namespace Sys2Proof

/-- `MEMWORDS`: 256 words, addresses 0 to 255 (R5, R30). -/
def Config.memWords : Nat := 256

/-- `REG_RESET`: what r1 to r15 hold at the start of a run; element k is register k + 1.
DESIGN CHOICE of the spec (R28, D8), unsafe: log 3. -/
def Config.regReset : Vector Word 15 := Vector.replicate 15 0

/-- `DIV_MODE`: how `div` rounds an inexact quotient (R109). -/
inductive DivMode where
  /-- toward minus infinity -/
  | floor
  /-- toward zero -/
  | trunc
  deriving DecidableEq, Repr

/-- The operand field codes (R52 to R56). -/
inductive FieldCode where
  /-- R52: 4-bit skip, yields nothing -/
  | z
  /-- R53: 4-bit register index -/
  | r
  /-- R54: 8-bit unsigned -/
  | u
  /-- R55: 8-bit signed -/
  | s
  /-- R56: the whole word, signed -/
  | n
  deriving DecidableEq, Repr

/-- A row of the encoding table (R58). -/
structure Row where
  pattern : Word
  mask : Word
  mnemonic : Mnemonic
  fields : List FieldCode
  deriving DecidableEq, Repr

end Sys2Proof
end

