-- ==== Sys2Proof/WellFormed.lean ====
section
/-! DEFINITION. Which instructions an assembler may emit: those whose word no earlier row of the encoding table claims (spec/30_encoding.md R63, R64, R68). Written from the prose of those rules, not from the decoder. -/

namespace Sys2Proof

/-- R64: the words that match none of rows 1 to 26. (a) Top nibble 0000 with a low nibble that is
not a sub-opcode 1 to 3, or sub-opcode 1 or 2 with a non-zero bits 7:4, the all-zero word excluded;
(b) top nibble 0100 with a low nibble of 4 or more. -/
def isStray (w : Word) : Bool :=
  let top := w.extractLsb' 12 4
  let mid := w.extractLsb' 4 4
  let low := w.extractLsb' 0 4
  (top == 0 && w != 0 &&
      ((low != 1 && low != 2 && low != 3) || ((low == 1 || low == 2) && mid != 0)))
    || (top == 4 && decide (4 ≤ low.toNat))

/-- R54: an 8-bit address field holds the value. -/
def isAddr (a : Int) : Bool := decide (0 ≤ a ∧ a ≤ 255)

/-- R55: an 8-bit signed field holds the value. -/
def isImm (n : Int) : Bool := decide (-128 ≤ n ∧ n ≤ 127)

/-- R66: an address is 0 to 255 and a number -128 to 127. R63, R68: an earlier row claims the words
of `mov r0, r0`, `add _, _, r0`, `sub _, r0, _` and `call r0, _`, and every word of rows 1 to 26 is
no `data`. Every other form is its own. -/
def Instr.wellFormed : Instr → Bool
  | .halt => true
  | .read _ => true
  | .write _ => true
  | .jumpi addr => isAddr addr
  | .loadn _ n => isImm n
  | .load _ addr => isAddr addr
  | .store _ addr => isAddr addr
  | .loadi _ _ => true
  | .storei _ _ => true
  | .popr _ _ => true
  | .pushn _ _ => true
  | .addn _ n => isImm n
  | .nop => true
  | .mov rdest rsrc => !(rdest == 0 && rsrc == 0)
  | .add _ _ ry => ry != 0
  | .neg _ _ => true
  | .sub _ rx _ => rx != 0
  | .mul _ _ _ => true
  | .div _ _ _ => true
  | .mod _ _ _ => true
  | .jump addr => isAddr addr
  | .call r addr => r != 0 && isAddr addr
  | .jeqz _ addr => isAddr addr
  | .jnez _ addr => isAddr addr
  | .jgtz _ addr => isAddr addr
  | .jltz _ addr => isAddr addr
  | .data w => isStray w

end Sys2Proof
end

