-- ==== Sys2Proof/Decode.lean ====
section
/-! DEFINITION. The decoder: the operand field-extractor (spec/30_encoding.md R51 to R57), the pattern-match priority encoder (R58, R59), the default encoding table (R60), and the encoder (R68). -/

namespace Sys2Proof

/-! ## Operand decoder -/

/-- `w[c+3 : c]` (R6). -/
def nibbleAt (w : Word) (c : Nat) : BitVec 4 := w.extractLsb' c 4

/-- `w[c+7 : c]` (R6). -/
def byteAt (w : Word) (c : Nat) : BitVec 8 := w.extractLsb' c 8

/-- R57 from a cursor `c`: a field of width k takes the k bits just below the cursor. `n` leaves
the cursor alone (D4). -/
def decodeFrom (w : Word) : Nat → List FieldCode → List Int
  | _, [] => []
  | c, .z :: fs => decodeFrom w (c - 4) fs
  | c, .r :: fs => (nibbleAt w (c - 4)).toNat :: decodeFrom w (c - 4) fs
  | c, .u :: fs => (byteAt w (c - 8)).toNat :: decodeFrom w (c - 8) fs
  | c, .s :: fs => (byteAt w (c - 8)).toInt :: decodeFrom w (c - 8) fs
  | c, .n :: fs => w.toInt :: decodeFrom w c fs

/-- R57: the whole operand decoder; the cursor starts at 12. -/
def decodeOperands (w : Word) (fs : List FieldCode) : List Int := decodeFrom w 12 fs

/-- How many bits of the word a field code consumes (R52 to R56). -/
def FieldCode.width : FieldCode → Nat
  | .z => 4
  | .r => 4
  | .u => 8
  | .s => 8
  | .n => 0

/-- R57: a well-formed field string consumes at most 12 bits, and one that holds `n` is `n` alone. -/
def fieldsOk (fs : List FieldCode) : Bool :=
  fs == [.n] || (!fs.contains .n && decide ((fs.map FieldCode.width).sum ≤ 12))

/-- R57: a table with an ill-formed field string in any row is refused as a whole. -/
def tableOk (table : List Row) : Bool := table.all fun row => fieldsOk row.fields

/-! ## Instruction matching -/

/-- R58: `(word & mask) = pattern`. -/
def Row.hits (row : Row) (w : Word) : Bool := w &&& row.mask == row.pattern

/-- R58: the first row that matches; later rows are not consulted. -/
def firstMatch : List Row → Word → Option Row
  | [], _ => none
  | row :: rest, w => if row.hits w then some row else firstMatch rest w

/-- R60: the default encoding table, `ENC_TABLE`, 27 rows in priority order.
DESIGN CHOICE of the spec (D1, D2, D3), unsafe: log 4. -/
def Config.encTable : List Row := [
  ⟨0x0000, 0xFFFF, .halt, []⟩,
  ⟨0x0001, 0xF0FF, .read, [.r]⟩,
  ⟨0x0002, 0xF0FF, .write, [.r]⟩,
  ⟨0x0003, 0xF00F, .jumpi, [.u, .z]⟩,
  ⟨0x1000, 0xF000, .loadn, [.r, .s]⟩,
  ⟨0x2000, 0xF000, .load, [.r, .u]⟩,
  ⟨0x3000, 0xF000, .store, [.r, .u]⟩,
  ⟨0x4000, 0xF00F, .loadi, [.r, .r]⟩,
  ⟨0x4001, 0xF00F, .storei, [.r, .r]⟩,
  ⟨0x4002, 0xF00F, .popr, [.r, .r]⟩,
  ⟨0x4003, 0xF00F, .pushn, [.r, .r]⟩,
  ⟨0x5000, 0xF000, .addn, [.r, .s]⟩,
  ⟨0x6000, 0xFFFF, .nop, []⟩,
  ⟨0x6000, 0xF00F, .mov, [.r, .r]⟩,
  ⟨0x6000, 0xF000, .add, [.r, .r, .r]⟩,
  ⟨0x7000, 0xF0F0, .neg, [.r, .z, .r]⟩,
  ⟨0x7000, 0xF000, .sub, [.r, .r, .r]⟩,
  ⟨0x8000, 0xF000, .mul, [.r, .r, .r]⟩,
  ⟨0x9000, 0xF000, .div, [.r, .r, .r]⟩,
  ⟨0xA000, 0xF000, .mod, [.r, .r, .r]⟩,
  ⟨0xB000, 0xFF00, .jump, [.z, .u]⟩,
  ⟨0xB000, 0xF000, .call, [.r, .u]⟩,
  ⟨0xC000, 0xF000, .jeqz, [.r, .u]⟩,
  ⟨0xD000, 0xF000, .jnez, [.r, .u]⟩,
  ⟨0xE000, 0xF000, .jgtz, [.r, .u]⟩,
  ⟨0xF000, 0xF000, .jltz, [.r, .u]⟩,
  ⟨0x0000, 0x0000, .data, [.n]⟩]

/-! ## From operands to an instruction -/

/-- A register operand: there are the registers 0 to 15 and no other (R53, R10). -/
def asReg (v : Int) : Option Reg := if 0 ≤ v ∧ v ≤ 15 then some (BitVec.ofInt 4 v) else none

/-- One register. -/
def ofReg (k : Reg → Instr) : List Int → Option Instr
  | v :: _ => (asReg v).map k
  | _ => none

/-- One number or address. -/
def ofNum (k : Int → Instr) : List Int → Option Instr
  | v :: _ => some (k v)
  | _ => none

/-- A register and a number or address. -/
def ofRegNum (k : Reg → Int → Instr) : List Int → Option Instr
  | v :: n :: _ => (asReg v).map fun r => k r n
  | _ => none

/-- Two registers. -/
def ofRegReg (k : Reg → Reg → Instr) : List Int → Option Instr
  | v :: u :: _ => (asReg v).bind fun r => (asReg u).map fun q => k r q
  | _ => none

/-- Three registers. -/
def ofRegRegReg (k : Reg → Reg → Reg → Instr) : List Int → Option Instr
  | v :: u :: t :: _ =>
    (asReg v).bind fun r => (asReg u).bind fun q => (asReg t).map fun p => k r q p
  | _ => none

/-- R51, D22: the n-th yielded value is the n-th name of the operand column, whatever field yielded
it (U2, log 20); values past the last name have no name. `none` where a name has no value, or a
register operand is no register. The operand of `data` is the whole word, which its rule does not
use (R84). -/
def assemble (w : Word) : Mnemonic → List Int → Option Instr
  | .halt => fun _ => some .halt
  | .read => ofReg .read
  | .write => ofReg .write
  | .jumpi => ofNum .jumpi
  | .loadn => ofRegNum .loadn
  | .load => ofRegNum .load
  | .store => ofRegNum .store
  | .loadi => ofRegReg .loadi
  | .storei => ofRegReg .storei
  | .popr => ofRegReg .popr
  | .pushn => ofRegReg .pushn
  | .addn => ofRegNum .addn
  | .nop => fun _ => some .nop
  | .mov => ofRegReg .mov
  | .add => ofRegRegReg .add
  | .neg => ofRegReg .neg
  | .sub => ofRegRegReg .sub
  | .mul => ofRegRegReg .mul
  | .div => ofRegRegReg .div
  | .mod => ofRegRegReg .mod
  | .jump => ofNum .jump
  | .call => ofRegNum .call
  | .jeqz => ofRegNum .jeqz
  | .jnez => ofRegNum .jnez
  | .jgtz => ofRegNum .jgtz
  | .jltz => ofRegNum .jltz
  | .data => fun _ => some (.data w)

/-- What decoding a word answers. -/
inductive Decoded where
  /-- the instruction of the first matching row -/
  | instr (i : Instr)
  /-- no row of the table matches (R58 `NoMatch`; R65) -/
  | noMatch
  /-- the matching row's field string is ill-formed (R57: refused) -/
  | illFormedRow (m : Mnemonic)
  /-- the matching row's fields yield no value for an operand, or no register for a register operand -/
  | unfit (m : Mnemonic)
  deriving DecidableEq, Repr

/-- The operands and instruction of a matched row (R57). -/
def decodeRow (row : Row) (w : Word) : Decoded :=
  if fieldsOk row.fields then
    match assemble w row.mnemonic (decodeOperands w row.fields) with
    | some i => .instr i
    | none => .unfit row.mnemonic
  else .illFormedRow row.mnemonic

/-- Match and decode a word with a given encoding table (R57, R58, R65). Total on every word. -/
def decodeWith (table : List Row) (w : Word) : Decoded :=
  match firstMatch table w with
  | none => .noMatch
  | some row => decodeRow row w

/-- Match and decode a word with the default table (R60). -/
def decode (w : Word) : Decoded := decodeWith Config.encTable w

/-- The instruction the decoder reads from an instruction word given as a number; the bits above
`nbits` are 0, and the block sees the word as a whole (R31), so no byte order enters. -/
def decodeTableWord (nbits w : Nat) : Option Instr :=
  match decode (BitVec.ofNat 16 (w % 2 ^ nbits)) with
  | .instr i => some i
  | .noMatch => none
  | .illFormedRow _ => none
  | .unfit _ => none

/-! ## Encoder -/

/-- R68: the row's pattern with each field put at its bits, written out nibble by nibble from the
pattern column of R60; a number goes in modulo 256. -/
def encode : Instr → Word
  | .halt => 0x0000
  | .read r => 0x0#4 ++ r ++ 0x0#4 ++ 0x1#4
  | .write r => 0x0#4 ++ r ++ 0x0#4 ++ 0x2#4
  | .jumpi addr => 0x0#4 ++ BitVec.ofInt 8 addr ++ 0x3#4
  | .loadn r n => 0x1#4 ++ r ++ BitVec.ofInt 8 n
  | .load r addr => 0x2#4 ++ r ++ BitVec.ofInt 8 addr
  | .store r addr => 0x3#4 ++ r ++ BitVec.ofInt 8 addr
  | .loadi rdest raddr => 0x4#4 ++ rdest ++ raddr ++ 0x0#4
  | .storei rsrc raddr => 0x4#4 ++ rsrc ++ raddr ++ 0x1#4
  | .popr rdest raddr => 0x4#4 ++ rdest ++ raddr ++ 0x2#4
  | .pushn rsrc raddr => 0x4#4 ++ rsrc ++ raddr ++ 0x3#4
  | .addn r n => 0x5#4 ++ r ++ BitVec.ofInt 8 n
  | .nop => 0x6000
  | .mov rdest rsrc => 0x6#4 ++ rdest ++ rsrc ++ 0x0#4
  | .add rdest rx ry => 0x6#4 ++ rdest ++ rx ++ ry
  | .neg rdest rx => 0x7#4 ++ rdest ++ 0x0#4 ++ rx
  | .sub rdest rx ry => 0x7#4 ++ rdest ++ rx ++ ry
  | .mul rdest rx ry => 0x8#4 ++ rdest ++ rx ++ ry
  | .div rdest rx ry => 0x9#4 ++ rdest ++ rx ++ ry
  | .mod rdest rx ry => 0xA#4 ++ rdest ++ rx ++ ry
  | .jump addr => 0xB#4 ++ 0x0#4 ++ BitVec.ofInt 8 addr
  | .call r addr => 0xB#4 ++ r ++ BitVec.ofInt 8 addr
  | .jeqz r addr => 0xC#4 ++ r ++ BitVec.ofInt 8 addr
  | .jnez r addr => 0xD#4 ++ r ++ BitVec.ofInt 8 addr
  | .jgtz r addr => 0xE#4 ++ r ++ BitVec.ofInt 8 addr
  | .jltz r addr => 0xF#4 ++ r ++ BitVec.ofInt 8 addr
  | .data word => word

end Sys2Proof
end

