-- ==== Sys2Proof/Machine/State.lean ====
section
/-! DEFINITION. The machine's state (spec/10_state.md R10 to R29), its fault classes (spec/60_exceptions.md R130), the reasons a model outcome may stop, and the state after reset (R28). Plain data throughout. -/

namespace Sys2Proof.Machine

/-- The run state (R17). -/
inductive RunState where
  | running
  | halted
  | faulted
  deriving DecidableEq, Repr

/-- The five fault classes with what each records (R130). Taking one is `takeFault` (Ops.lean), a
next state; the host's outcome `fault` is another thing (`Fault` below). -/
inductive FaultClass where
  /-- R135: the external loader's; no step raises it -/
  | loadError
  /-- R131: the fetched word matches no row -/
  | decodeFault (w : Word)
  /-- R132: the address lies outside [0, 255] -/
  | memoryBoundsFault (a : Int)
  /-- R133: a zero divisor -/
  | arithmeticFault
  /-- R134: `read` met a `Bad` token -/
  | inputFault
  deriving DecidableEq, Repr

/-- An input token (R22). -/
inductive Token where
  /-- a line that parses as an integer, any integer -/
  | int (v : Int)
  /-- end of input or non-integer text -/
  | bad
  deriving DecidableEq, Repr

/-- The dump record (R141): the pc, the signed values of r1 to r15 in index order, and the memory
words, unsigned, in 16 rows of 16. -/
structure DumpRecord where
  pc : Int
  regs : List Int
  rows : List (List Nat)
  deriving DecidableEq, Repr

/-- The 256-word memory (R20, R30) as byte cells in canonical form: addresses strictly rising, no
cell equal to what an unlisted cell reads as. Word `a` is cells `2 * a` (bits 15 to 8) and
`2 * a + 1` (bits 7 to 0); no access of the machine sees a half word. DESIGN CHOICE, safe: log 1. -/
abbrev Memory := List Host.Cell

/-- What an unlisted cell reads as: memory beyond the image starts at zero (R28, R37). -/
def Memory.unlisted : Byte := 0

/-- The canonical form, within the 512 cells of the 256 words. -/
abbrev Memory.wf (m : Memory) : Prop :=
  m.Pairwise (fun c d => c.1 < d.1) ∧ ∀ c ∈ m, c.2 ≠ Memory.unlisted ∧ c.1 < 2 * Config.memWords

/-- All state the spec gives the machine, and one field of the model's own (`dump`). -/
structure State where
  /-- r1 to r15, element k is register k + 1; r0 has no storage (R10) -/
  regs : Vector Word 15
  /-- R14: an integer index into memory; 0 to 256 under the default table (R16) -/
  pc : Int
  /-- R17 -/
  run : RunState
  /-- R18: 0, or the code of the fault taken -/
  faultCause : Nat
  /-- R19: 0, or what the fault taken records -/
  faultInfo : Int
  /-- R20 -/
  mem : Memory
  /-- R22: the tokens the environment has supplied so far, first one first -/
  input : List Token
  /-- R22: the core's cursor into `input` -/
  inPos : Nat
  /-- R23: the values emitted so far, oldest first -/
  out : List Int
  /-- The MODEL's own: the record the dump port has carried, if any (R24, R136; log 9) -/
  dump : Option DumpRecord
  deriving DecidableEq, Repr

/-- Why a model outcome is a host `fault`. No instruction and no step answers with it: every fault
of a step is TAKEN (R136) and is a next state. -/
inductive Fault where
  /-- R135: raised by `launch` alone, when the external loader reports an unsupported image version;
  the block is never initialised. Safe: no state exists about which anything could be claimed. -/
  | loadError
  deriving DecidableEq, Repr

/-- Why a model outcome is a host `refused`. -/
inductive Refusal where
  /-- Raised by an arm of `exec` for an instruction without a meaning: no arm does. Safe. -/
  | notModelled (mnemonic : String)
  /-- R161: raised by `launch` alone, when the length exceeds 256 or differs from the number of
  words supplied (D15). Safe: nothing can be claimed of such a launch. -/
  | launchPremise
  /-- R57: raised by every step under an encoding table that holds a row with an ill-formed field
  string; never under the default table. Safe. -/
  | illFormedTable
  /-- Raised by a step under an encoding table whose matching row yields no value for an operand of
  its mnemonic, or no register for a register operand: no rule gives such a row a meaning; never
  under the default table. Safe (log 20). -/
  | operandsUnfit
  deriving DecidableEq, Repr

/-- The machine at the start of a run with the empty image and no input token supplied yet (R28,
R160). A program is put into memory by `launch` (Launch.lean): log 2. -/
def State.reset : State where
  regs := Config.regReset
  pc := 0
  run := .running
  faultCause := 0
  faultInfo := 0
  mem := []
  input := []
  inPos := 0
  out := []
  dump := none

end Sys2Proof.Machine
end

