-- ==== Sys2Proof/Machine/Ops.lean ====
section
/-! DEFINITION. The primitives every instruction rule is written with (spec/00_scope.md R7, R8): the two wraps, register and memory access, the ports, taking a fault (spec/60_exceptions.md R136) with its dump record (R141), and the fetch (spec/20_memory.md R44). There is no return from a fault (R145). -/

namespace Sys2Proof.Machine

/-- What a meaning answers. -/
abbrev Result := Host.Outcome State Fault Refusal

/-! ## The two wraps -/

/-- R7: reduction modulo 2^16 read as signed. -/
def wrap16 (v : Int) : Int := (v + 32768) % 65536 - 32768

/-- R7: reduction modulo 2^16, unsigned. -/
def uwrap16 (v : Int) : Int := v % 65536

/-- R7: the N-bit unsigned integer `v` read as signed two's complement. -/
def sext (n : Nat) (v : Int) : Int := if v < 2 ^ (n - 1) then v else v - 2 ^ n

/-- R7: the N-bit unsigned integer `v` as it stands. -/
def zext (_n : Nat) (v : Int) : Int := v

/-! ## Registers -/

/-- R11: register read. -/
def getReg (s : State) (i : Reg) : Int :=
  if i = 0 then 0 else (s.regs[i.toNat - 1]).toInt

/-- R12: register write; nothing for r0, else the cell holds `wrap16 v`. -/
def setReg (s : State) (i : Reg) (v : Int) : State :=
  if i = 0 then s
  else { s with regs := s.regs.set (i.toNat - 1) (BitVec.ofInt 16 (wrap16 v)) }

/-! ## Memory cells -/

/-- One cell. -/
def Memory.readByte : Memory → Nat → Byte
  | [], _ => Memory.unlisted
  | (b, v) :: m, a => if b = a then v else Memory.readByte m a

/-- Drop what is listed at `a`. -/
def Memory.erase (m : Memory) (a : Nat) : Memory := m.filter (fun c => c.1 != a)

/-- Put a cell before the first higher address. -/
def Memory.insert : Memory → Nat → Byte → Memory
  | [], a, v => [(a, v)]
  | (b, w) :: m, a, v => if a < b then (a, v) :: (b, w) :: m else (b, w) :: Memory.insert m a v

/-- Write one cell, keeping the canonical form: a cell equal to the unlisted value is dropped. -/
def Memory.writeByte (m : Memory) (a : Nat) (v : Byte) : Memory :=
  if v = Memory.unlisted then Memory.erase m a else Memory.insert (Memory.erase m a) a v

/-- The word at word address `a`: cell `2 * a` is its high half (log 1). -/
def Memory.readWord (m : Memory) (a : Nat) : Word :=
  Memory.readByte m (2 * a) ++ Memory.readByte m (2 * a + 1)

/-- Store a word at word address `a`. -/
def Memory.writeWord (m : Memory) (a : Nat) (w : Word) : Memory :=
  Memory.writeByte (Memory.writeByte m (2 * a) (w.extractLsb' 8 8)) (2 * a + 1) (w.extractLsb' 0 8)

/-! ## The two memory primitives -/

/-- R30, R35: the address names a word. -/
abbrev inRange (a : Int) : Prop := 0 ≤ a ∧ a ≤ 255

/-- R32: `MemRead(a, 16)`. -/
def memRead (s : State) (a : Int) : Except FaultClass Word :=
  if inRange a then .ok (s.mem.readWord a.toNat) else .error (.memoryBoundsFault a)

/-- R33: `MemWrite(a, 16, v)`, `v` in [0, 65535]. -/
def memWrite (s : State) (a v : Int) : Except FaultClass State :=
  if inRange a then .ok { s with mem := s.mem.writeWord a.toNat (BitVec.ofInt 16 v) }
  else .error (.memoryBoundsFault a)

/-! ## Program counter -/

/-- `pc <- pc + 1` (R15); no wrap at the top of memory (R16). -/
def advance (s : State) : State := { s with pc := s.pc + 1 }

/-- `pc <- t` (R8). -/
def jumpTo (s : State) (t : Int) : State := { s with pc := t }

/-! ## Ports -/

/-- R22: what `In()` finds at the cursor: a token, or none supplied yet (the step holds). -/
def nextToken (s : State) : Option Token := s.input[s.inPos]?

/-- R22: the cursor moves past the token taken. -/
def takeToken (s : State) : State := { s with inPos := s.inPos + 1 }

/-- R23: `Out(v)`. -/
def emit (s : State) (v : Int) : State := { s with out := s.out ++ [v] }

/-- R22, R165: the environment supplies further tokens. Not an instruction's effect. -/
def State.supply (s : State) (ts : List Token) : State := { s with input := s.input ++ ts }

/-! ## Ending the run -/

/-- `state <- Halted` (R80, R84). -/
def haltRun (s : State) : State := { s with run := .halted }

/-- R130: the code a fault class leaves in `fault_cause` (D5, log 11). -/
def FaultClass.code : FaultClass → Nat
  | .loadError => 1
  | .decodeFault _ => 2
  | .memoryBoundsFault _ => 3
  | .arithmeticFault => 4
  | .inputFault => 5

/-- R130: the integer a fault class leaves in `fault_info`. -/
def FaultClass.info : FaultClass → Int
  | .loadError => 0
  | .decodeFault w => w.toNat
  | .memoryBoundsFault a => a
  | .arithmeticFault => 0
  | .inputFault => 0

/-- R141: the record the dump port carries, read off a state: r1 to r15 in index order (D17), then
row k holds addresses 16k to 16k + 15. -/
def dumpRecord (s : State) : DumpRecord where
  pc := s.pc
  regs := (List.range 15).map (fun k => getReg s (BitVec.ofNat 4 (k + 1)))
  rows := (List.range 16).map fun k =>
    (List.range 16).map fun j => (s.mem.readWord (16 * k + j)).toNat

/-- R136: taking a fault. Registers, memory, pc and output stay as they are; the run state, cause
and information are written and the dump record is presented. -/
def takeFault (f : FaultClass) (s : State) : State :=
  { s with
    run := .faulted
    faultCause := f.code
    faultInfo := f.info
    dump := some (dumpRecord s) }

/-- A statement that may raise, then the rest of the rule (R8 `raise`): on a fault nothing of the
rest happens and the fault is taken from the state the step began with (R136, R137). -/
def attempt {α : Type} (s : State) (r : Except FaultClass α) (k : α → State) : Result :=
  match r with
  | .ok a => .next (k a)
  | .error f => .next (takeFault f s)

/-! ## Fetch -/

/-- R44: the fetch is `MemRead(pc, 16)`. -/
def fetch (s : State) : Except FaultClass Word := memRead s s.pc

/-- `s` with `w` at word address `a`, for putting an instruction where the fetch reads it. -/
def placeWord (s : State) (a : Nat) (w : Word) : State := { s with mem := s.mem.writeWord a w }

end Sys2Proof.Machine
end

