-- ==== Sys2Proof/Machine/Operands.lean ====
section
/-! DEFINITION. The operand forms: immediate, direct address, register-indirect address, and the register value as it goes to memory (spec/41_data_movement.md, opening paragraph; spec/20_memory.md R35). The post-modification of `popr` and `pushn` is in their rules. -/

namespace Sys2Proof.Machine

/-- The number operand of `loadn` and `addn`: what the field yielded, in [-128, 127] from an `s`
field (R55, R62). -/
def immValue (n : Int) : Int := n

/-- A direct address: what the field yielded, as it stands, always in [0, 255] from a `u` field
(R35, R54). -/
def directAddr (addr : Int) : Int := addr

/-- A computed address: the signed value of the address register, not reduced in any way (R35). -/
def indirectAddr (s : State) (raddr : Reg) : Int := getReg s raddr

/-- What a store puts into memory: `uwrap16` of the register's signed value (R33). -/
def storedValue (s : State) (rsrc : Reg) : Int := uwrap16 (getReg s rsrc)

/-- What a load hands to the register write, which wraps it (R32, R12): the word as an unsigned
integer. -/
def loadedValue (w : Word) : Int := zext 16 w.toNat

end Sys2Proof.Machine
end

