-- ==== Sys2Proof/Machine/Arithmetic.lean ====
section
/-! DEFINITION. The arithmetic instructions (spec/42_arithmetic.md R100 to R107) and their division functions (R109). Every operation is exact on integers; the register write wraps (R108). -/

namespace Sys2Proof

/-- `DIV_MODE`, default floor (R5, R109). DESIGN CHOICE of the spec (D7), unsafe: log 5. -/
def Config.divMode : DivMode := .floor

end Sys2Proof

namespace Sys2Proof.Machine

/-- R109: the quotient; never called with `b = 0`. -/
def fdiv : DivMode → Int → Int → Int
  | .floor, a, b => Int.fdiv a b
  | .trunc, a, b => Int.tdiv a b

/-- R109: the modulus, in both modes what the quotient leaves. -/
def fmod (m : DivMode) (a b : Int) : Int := a - b * fdiv m a b

/-- The common ending of the arithmetic rules: write the exact result, advance (R108). -/
def writeResult (s : State) (rdest : Reg) (v : Int) : State := advance (setReg s rdest v)

/-- R106, R107: the zero test comes before the write. -/
def divideWith (op : Int → Int → Int) (rdest rx ry : Reg) (s : State) : Result :=
  if getReg s ry = 0 then .next (takeFault .arithmeticFault s)
  else .next (writeResult s rdest (op (getReg s rx) (getReg s ry)))

/-- R100 -/
def execAddn (r : Reg) (n : Int) (s : State) : Result :=
  .next (writeResult s r (getReg s r + immValue n))

/-- R101 -/
def execMov (rdest rsrc : Reg) (s : State) : Result :=
  .next (writeResult s rdest (getReg s rsrc))

/-- R102 -/
def execAdd (rdest rx ry : Reg) (s : State) : Result :=
  .next (writeResult s rdest (getReg s rx + getReg s ry))

/-- R103 -/
def execNeg (rdest rx : Reg) (s : State) : Result :=
  .next (writeResult s rdest (0 - getReg s rx))

/-- R104 -/
def execSub (rdest rx ry : Reg) (s : State) : Result :=
  .next (writeResult s rdest (getReg s rx - getReg s ry))

/-- R105 -/
def execMul (rdest rx ry : Reg) (s : State) : Result :=
  .next (writeResult s rdest (getReg s rx * getReg s ry))

/-- R106 -/
def execDiv (rdest rx ry : Reg) (s : State) : Result :=
  divideWith (fdiv Config.divMode) rdest rx ry s

/-- R107 -/
def execMod (rdest rx ry : Reg) (s : State) : Result :=
  divideWith (fmod Config.divMode) rdest rx ry s

end Sys2Proof.Machine
end

