-- ==== Sys2Proof/Machine/Flags.lean ====
section
/-! DEFINITION. The machine has NO flags (spec/10_state.md R25): no instruction sets or reads one. What takes their place is here: the four conditions the conditional jumps test on a register's signed value (spec/43_control_transfer.md R123 to R126). -/

namespace Sys2Proof.Machine

/-- The condition of a conditional jump. -/
inductive Cond where
  | eqz
  | nez
  | gtz
  | ltz
  deriving DecidableEq, Repr

/-- R123 to R126: signed comparisons with zero. -/
def Cond.holds : Cond → Int → Bool
  | .eqz, v => v == 0
  | .nez, v => v != 0
  | .gtz, v => decide (0 < v)
  | .ltz, v => decide (v < 0)

end Sys2Proof.Machine
end

