-- ==== Sys2Proof/Machine/Control.lean ====
section
/-! DEFINITION. The control transfer instructions (spec/43_control_transfer.md R120 to R126). Every target is a direct address, in range whenever a `u` field yielded it. -/

namespace Sys2Proof.Machine

/-- R123 to R126: to the target when the condition holds of the register, else to the next word. -/
def branchIf (c : Cond) (r : Reg) (addr : Int) (s : State) : Result :=
  .next (if c.holds (getReg s r) then jumpTo s (directAddr addr) else advance s)

/-- R120 -/
def execJumpi (addr : Int) (s : State) : Result := .next (jumpTo s (directAddr addr))

/-- R121 -/
def execJump (addr : Int) (s : State) : Result := .next (jumpTo s (directAddr addr))

/-- R122: the link register receives the address of the call itself. -/
def execCall (r : Reg) (addr : Int) (s : State) : Result :=
  .next (jumpTo (setReg s r s.pc) (directAddr addr))

/-- R123 -/
def execJeqz (r : Reg) (addr : Int) (s : State) : Result := branchIf .eqz r addr s

/-- R126 -/
def execJnez (r : Reg) (addr : Int) (s : State) : Result := branchIf .nez r addr s

/-- R124 -/
def execJgtz (r : Reg) (addr : Int) (s : State) : Result := branchIf .gtz r addr s

/-- R125 -/
def execJltz (r : Reg) (addr : Int) (s : State) : Result := branchIf .ltz r addr s

end Sys2Proof.Machine
end

