-- ==== Sys2Proof/Machine/DataMovement.lean ====
section
/-! DEFINITION. The data movement instructions (spec/41_data_movement.md R90 to R96). -/

namespace Sys2Proof.Machine

/-- R90 -/
def execLoadn (r : Reg) (n : Int) (s : State) : Result := .next (advance (setReg s r (immValue n)))

/-- R91 -/
def execLoad (r : Reg) (addr : Int) (s : State) : Result :=
  attempt s (memRead s (directAddr addr)) fun w => advance (setReg s r (loadedValue w))

/-- R92 -/
def execStore (r : Reg) (addr : Int) (s : State) : Result :=
  attempt s (memWrite s (directAddr addr) (storedValue s r)) advance

/-- R93 -/
def execLoadi (rdest raddr : Reg) (s : State) : Result :=
  attempt s (memRead s (indirectAddr s raddr)) fun w => advance (setReg s rdest (loadedValue w))

/-- R94 -/
def execStorei (rsrc raddr : Reg) (s : State) : Result :=
  attempt s (memWrite s (indirectAddr s raddr) (storedValue s rsrc)) advance

/-- R95: read at the old address, then decrement; the decrement reads `raddr` again, after the
destination was written (D9: log 12). -/
def execPopr (rdest raddr : Reg) (s : State) : Result :=
  attempt s (memRead s (indirectAddr s raddr)) fun w =>
    let loaded := setReg s rdest (loadedValue w)
    advance (setReg loaded raddr (getReg loaded raddr - 1))

/-- R96: store at the old address, then increment. -/
def execPushn (rsrc raddr : Reg) (s : State) : Result :=
  attempt s (memWrite s (indirectAddr s raddr) (storedValue s rsrc)) fun stored =>
    advance (setReg stored raddr (getReg stored raddr + 1))

end Sys2Proof.Machine
end

