-- ==== Sys2Proof/Machine/System.lean ====
section
/-! DEFINITION. The system and input/output instructions (spec/40_system_io.md R80 to R84). -/

namespace Sys2Proof.Machine

/-- R80: the run ends cleanly, the pc stays. -/
def execHalt (s : State) : Result := .next (haltRun s)

/-- R81 -/
def execNop (s : State) : Result := .next (advance s)

/-- R82: holds while no token is available (nothing changes: log 6); a `Bad` token is consumed and
faults; an integer is stored through the wrap, or dropped for r0 (D11, D21: log 14). -/
def execRead (r : Reg) (s : State) : Result :=
  match nextToken s with
  | none => .next s
  | some .bad => .next (takeFault .inputFault (takeToken s))
  | some (.int v) => .next (advance (setReg (takeToken s) r v))

/-- R83 -/
def execWrite (r : Reg) (s : State) : Result := .next (advance (emit s (getReg s r)))

/-- R84: the sentinel ends the run as `halt` does (D10: log 13); its operand is not used. -/
def execData (_word : Word) (s : State) : Result := .next (haltRun s)

end Sys2Proof.Machine
end

