-- ==== Sys2Proof/Machine/Dispatch.lean ====
section
/-! DEFINITION. The execute phase of a step (spec/60_exceptions.md R138): one arm per instruction. -/

namespace Sys2Proof.Machine

def exec (i : Instr) (s : State) : Host.Outcome State Fault Refusal :=
  match i with
  | .halt => Sys2Proof.Machine.execHalt s
  | .read r => Sys2Proof.Machine.execRead r s
  | .write r => Sys2Proof.Machine.execWrite r s
  | .jumpi addr => Sys2Proof.Machine.execJumpi addr s
  | .loadn r n => Sys2Proof.Machine.execLoadn r n s
  | .load r addr => Sys2Proof.Machine.execLoad r addr s
  | .store r addr => Sys2Proof.Machine.execStore r addr s
  | .loadi rdest raddr => Sys2Proof.Machine.execLoadi rdest raddr s
  | .storei rsrc raddr => Sys2Proof.Machine.execStorei rsrc raddr s
  | .popr rdest raddr => Sys2Proof.Machine.execPopr rdest raddr s
  | .pushn rsrc raddr => Sys2Proof.Machine.execPushn rsrc raddr s
  | .addn r n => Sys2Proof.Machine.execAddn r n s
  | .nop => Sys2Proof.Machine.execNop s
  | .mov rdest rsrc => Sys2Proof.Machine.execMov rdest rsrc s
  | .add rdest rx ry => Sys2Proof.Machine.execAdd rdest rx ry s
  | .neg rdest rx => Sys2Proof.Machine.execNeg rdest rx s
  | .sub rdest rx ry => Sys2Proof.Machine.execSub rdest rx ry s
  | .mul rdest rx ry => Sys2Proof.Machine.execMul rdest rx ry s
  | .div rdest rx ry => Sys2Proof.Machine.execDiv rdest rx ry s
  | .mod rdest rx ry => Sys2Proof.Machine.execMod rdest rx ry s
  | .jump addr => Sys2Proof.Machine.execJump addr s
  | .call r addr => Sys2Proof.Machine.execCall r addr s
  | .jeqz r addr => Sys2Proof.Machine.execJeqz r addr s
  | .jnez r addr => Sys2Proof.Machine.execJnez r addr s
  | .jgtz r addr => Sys2Proof.Machine.execJgtz r addr s
  | .jltz r addr => Sys2Proof.Machine.execJltz r addr s
  | .data word => Sys2Proof.Machine.execData word s

end Sys2Proof.Machine
end

