-- ==== Sys2Proof/Machine/Cycle.lean ====
section
/-! DEFINITION. The fetch-decode-execute cycle (spec/60_exceptions.md R138) as a function of the encoding table, so that both behaviours of R65 are the model's: with the default table no word is left unmatched, with a table that lacks a catch-all row a stray word raises the decode fault. -/

namespace Sys2Proof.Machine

/-- Match, decode and execute a fetched word (R138, R131, R57). -/
def runWord (table : List Row) (w : Word) (s : State) : Result :=
  match decodeWith table w with
  | .instr i => exec i s
  | .noMatch => .next (takeFault (.decodeFault w) s)
  | .illFormedRow _ => .refused .illFormedTable
  | .unfit _ => .refused .operandsUnfit

/-- One step under a table that is not refused. A step exists only in Running; Halted and Faulted
are absorbing, nothing in the machine changes once in them (R17; log 7). -/
def cycleOk (table : List Row) (s : State) : Result :=
  match s.run with
  | .running =>
    match fetch s with
    | .error f => .next (takeFault f s)
    | .ok w => runWord table w s
  | .halted => .next s
  | .faulted => .next s

/-- One step under a given encoding table. A table with an ill-formed field string in any row is
refused, whatever word would be fetched (R57; log 16). -/
def cycle (table : List Row) (s : State) : Result :=
  if tableOk table then cycleOk table s else .refused .illFormedTable

end Sys2Proof.Machine
end

