-- ==== Sys2Proof/Machine/Step.lean ====
section
/-! DEFINITION. One step of the machine under the default encoding table (spec/60_exceptions.md R138, spec/30_encoding.md R60), and the placing of one instruction where the next step fetches it. -/

namespace Sys2Proof.Machine

/-- R138 with `ENC_TABLE` at its default. -/
def step (s : State) : Host.Outcome State Fault Refusal := cycle Config.encTable s

/-- `s` with the instruction word `w` stored where the next step fetches. A machine that has left
Running, or whose pc is no address of memory, fetches nothing; there the run state is made Running and
the pc 0, which is all the fetch needs (log 2). -/
def State.withFetchWord (s : State) (nbits w : Nat) : State :=
  let at_ := if inRange s.pc then s.pc else 0
  placeWord { s with pc := at_, run := .running } at_.toNat (BitVec.ofNat 16 (w % 2 ^ nbits))

end Sys2Proof.Machine
end

