-- ==== Sys2Proof/Machine/Launch.lean ====
section
/-! DEFINITION. The load interface (spec/70_reset_and_hazards.md R160, R161, R164): initialisation from what the external loader hands over, or no start at all (R135, D15). -/

namespace Sys2Proof.Machine

/-- What the external loader hands the block: the image words and their length, or a load error
(R161, R163). -/
inductive LoaderResult where
  | loadError
  | image (words : List Word) (length : Nat)
  deriving DecidableEq, Repr

/-- R163: accepted image versions are 0 and 1, any other is a load error. How the words are found
in the file is the loader's own (R4 (a)). -/
def LoaderResult.ofVersion (version : Byte) (words : List Word) (length : Nat) : LoaderResult :=
  if version = 0 ∨ version = 1 then .image words length else .loadError

/-- R160: the image word by word from address `a` on. -/
def loadFrom : Memory → Nat → List Word → Memory
  | m, _, [] => m
  | m, a, w :: ws => loadFrom (m.writeWord a w) (a + 1) ws

/-- R160: initialisation. Everything but memory is as after reset. -/
def initialise (words : List Word) : State := { State.reset with mem := loadFrom [] 0 words }

/-- R160, R161: the start of a run. A load error means the block is never initialised (R135); a
broken premise is refused rather than truncated or grown (D15: log 16). -/
def launch : LoaderResult → Result
  | .loadError => .fault .loadError
  | .image words length =>
    if length ≤ Config.memWords ∧ length = words.length then .next (initialise words)
    else .refused .launchPremise

end Sys2Proof.Machine
end

