-- ==== Sys2Proof/Safety.lean ====
section
/-! DEFINITION. The terms claims are stated in: what an instruction leaves as it was, completion, a taken fault, holding, and the invariant of the machine (spec/10_state.md R10 to R23, spec/60_exceptions.md R130, R136, R141). -/

namespace Sys2Proof.Safety

open Sys2Proof.Machine

/-! ## What a step changes and what it leaves -/

/-- Every byte cell of memory reads as before. -/
def SameMemory (s t : State) : Prop := ∀ a : Nat, t.mem.readByte a = s.mem.readByte a

/-- Word address `a` reads as the unsigned value `v`, and every byte cell outside that word's two
cells reads as before. -/
def StoresWord (s t : State) (a : Nat) (v : Int) : Prop :=
  (t.mem.readWord a).toNat = v ∧
  ∀ b : Nat, b ≠ 2 * a → b ≠ 2 * a + 1 → t.mem.readByte b = s.mem.readByte b

/-- Every register reads as before. -/
def SameRegs (s t : State) : Prop := ∀ q : Reg, getReg t q = getReg s q

/-- Register `r` reads as `wrap16 v` unless it is r0, and every other register as before. -/
def WritesReg (s t : State) (r : Reg) (v : Int) : Prop :=
  ∀ q : Reg, getReg t q = if q = r ∧ q ≠ 0 then wrap16 v else getReg s q

/-- The input sequence, the input cursor and the output sequence are as before. -/
def SamePorts (s t : State) : Prop := t.input = s.input ∧ t.inPos = s.inPos ∧ t.out = s.out

/-- The run state, the two fault registers and the dump port are as before. -/
def SameStatus (s t : State) : Prop :=
  t.run = s.run ∧ t.faultCause = s.faultCause ∧ t.faultInfo = s.faultInfo ∧ t.dump = s.dump

/-- The instruction completes, in a next state with the property. -/
def Completes (i : Instr) (s : State) (P : State → Prop) : Prop :=
  ∃ t, exec i s = .next t ∧ P t

/-- The effect of an instruction that writes one register and nothing else, and falls through. -/
def OnlyWritesReg (s t : State) (r : Reg) (v : Int) : Prop :=
  WritesReg s t r v ∧ t.pc = s.pc + 1 ∧ SameMemory s t ∧ SamePorts s t ∧ SameStatus s t

/-- The effect of an instruction that does nothing but set the pc. -/
def OnlySetsPc (s t : State) (target : Int) : Prop :=
  t.pc = target ∧ SameRegs s t ∧ SameMemory s t ∧ SamePorts s t ∧ SameStatus s t

/-- `t` is `s` with the fault `f` taken (R136): registers, memory, pc, input and output as before,
the cursor as given, run state Faulted, both fault registers written, and the dump record of `s`
on the dump port. -/
def FaultTaken (s t : State) (f : FaultClass) (inPos : Nat) : Prop :=
  t.run = .faulted ∧ t.faultCause = f.code ∧ t.faultInfo = f.info ∧ t.dump = some (dumpRecord s) ∧
  t.pc = s.pc ∧ SameRegs s t ∧ SameMemory s t ∧ t.input = s.input ∧ t.inPos = inPos ∧ t.out = s.out

/-! ## Runs -/

/-- The machine waits at a `read` for a token that has not been supplied (R22, R150). -/
def Holding (s : State) : Prop :=
  s.run = .running ∧ ∃ w r, fetch s = .ok w ∧ decode w = .instr (.read r) ∧ nextToken s = none

/-! ## The invariant -/

/-- What the two fault registers may hold together in a faulted machine (R18, R19, R130). -/
def CauseOk (cause : Nat) (info : Int) : Prop :=
  (cause = 2 ∧ 0 ≤ info ∧ info ≤ 65535) ∨
  (cause = 3 ∧ ((-32768 ≤ info ∧ info ≤ -1) ∨ (256 ≤ info ∧ info ≤ 32767))) ∨
  ((cause = 4 ∨ cause = 5) ∧ info = 0)

/-- What holds of the machine between any two steps. -/
structure Invariant (s : State) : Prop where
  /-- the memory list is canonical and holds no cell outside the 256 words (R30) -/
  memory : s.mem.wf
  /-- R16 -/
  pc : 0 ≤ s.pc ∧ s.pc ≤ 256
  /-- a clean end leaves the pc at the word executed (R80, R84) -/
  haltedPc : s.run = .halted → s.pc ≤ 255
  /-- R23 -/
  output : ∀ v ∈ s.out, -32768 ≤ v ∧ v ≤ 32767
  /-- the cursor never passes the tokens supplied (R22) -/
  cursor : s.inPos ≤ s.input.length
  /-- R18, R19, R140: no fault, then nothing in the fault registers and no dump -/
  unfaulted : s.run ≠ .faulted → s.faultCause = 0 ∧ s.faultInfo = 0 ∧ s.dump = none
  /-- R130, R136, R141: a fault, then a cause of a step's fault and the dump of this very state -/
  faulted : s.run = .faulted → CauseOk s.faultCause s.faultInfo ∧ s.dump = some (dumpRecord s)

end Sys2Proof.Safety
end

