-- ==== Sys2Proof/Certificates/Slice0/Obligations.lean ====
section
/-! DEFINITION. The statements for the provers. Frames are said through the predicates of Sys2Proof/Safety.lean; every completion statement concludes that `exec` answers a next state. -/

open Sys2Proof Sys2Proof.Machine Sys2Proof.Safety

/-! ## Words, registers, memory -/

/-- R7: the two wraps, their ranges, that each undoes the other on its range, that a register value
and its memory word are the same 16 bits, and the two extensions. -/
def Obligations.WrapsReduceModulo65536 : Prop :=
  (∀ v : Int, wrap16 v = (v + 32768) % 65536 - 32768 ∧ -32768 ≤ wrap16 v ∧ wrap16 v ≤ 32767 ∧
    uwrap16 v = v % 65536 ∧ 0 ≤ uwrap16 v ∧ uwrap16 v ≤ 65535 ∧
    (BitVec.ofInt 16 v).toInt = wrap16 v ∧ ((BitVec.ofInt 16 v).toNat : Int) = uwrap16 v ∧
    BitVec.ofInt 16 (wrap16 v) = BitVec.ofInt 16 (uwrap16 v)) ∧
  (∀ v : Int, -32768 ≤ v → v ≤ 32767 → wrap16 (uwrap16 v) = v) ∧
  (∀ u : Int, 0 ≤ u → u ≤ 65535 → uwrap16 (wrap16 u) = u ∧ wrap16 u = sext 16 u) ∧
  (∀ (n : Nat) (v : Int), (v < 2 ^ (n - 1) → sext n v = v) ∧
    (¬ v < 2 ^ (n - 1) → sext n v = v - 2 ^ n) ∧ zext n v = v)

/-- R11: r0 reads 0; any other register reads the signed value of its cell, in 16-bit range; and
what that makes of `write r0`, `jeqz r0`, `loadi rd, r0` and `div rd, rx, r0`. -/
def Obligations.RegisterReadSeesZeroInR0 : Prop :=
  ∀ s : State,
    getReg s 0 = 0 ∧
    (∀ i : Reg, i ≠ 0 → getReg s i = (s.regs[i.toNat - 1]).toInt ∧
      -32768 ≤ getReg s i ∧ getReg s i ≤ 32767) ∧
    Completes (.write 0) s (fun t => t.out = s.out ++ [0]) ∧
    (∀ addr, Completes (.jeqz 0 addr) s (fun t => t.pc = addr)) ∧
    (∀ rd, rd ≠ 0 →
      Completes (.loadi rd 0) s (fun t => getReg t rd = wrap16 (s.mem.readWord 0).toNat)) ∧
    (∀ rd rx, Completes (.div rd rx 0) s (fun t => t.run = .faulted))

/-- R12: a write to r0 changes nothing; a write to another register leaves `wrap16 v` there and
everything else alone; r0 reads 0 after every instruction; the wrap applies to loaded words, to
input and to the address `call` stores; and with r0 as destination the rest of the instruction still
happens: the token is consumed, the access is made, a zero divisor faults, the jump is taken. -/
def Obligations.RegisterWriteWrapsAndR0Swallows : Prop :=
  (∀ (s : State) (v : Int), setReg s 0 v = s) ∧
  (∀ (s : State) (i : Reg) (v : Int), i ≠ 0 → WritesReg s (setReg s i v) i v ∧
    getReg (setReg s i v) i = wrap16 v ∧ (setReg s i v).pc = s.pc ∧
    SameMemory s (setReg s i v) ∧ SamePorts s (setReg s i v) ∧ SameStatus s (setReg s i v)) ∧
  (∀ (i : Instr) (s t : State), exec i s = .next t → getReg t 0 = 0) ∧
  (∀ (s : State) (r : Reg) (addr : Int), r ≠ 0 →
    (inRange addr → Completes (.load r addr) s
      (fun t => getReg t r = wrap16 (s.mem.readWord addr.toNat).toNat)) ∧
    Completes (.call r addr) s (fun t => getReg t r = wrap16 s.pc) ∧
    ∀ v, nextToken s = some (.int v) → Completes (.read r) s (fun t => getReg t r = wrap16 v)) ∧
  (∀ (s : State) (v : Int), nextToken s = some (.int v) →
    Completes (.read 0) s (fun t => t.inPos = s.inPos + 1)) ∧
  (∀ (s : State) (ra : Reg), ¬ inRange (getReg s ra) →
    Completes (.loadi 0 ra) s (fun t => t.run = .faulted) ∧
    Completes (.popr 0 ra) s (fun t => t.run = .faulted)) ∧
  (∀ (s : State) (rs : Reg),
    Completes (.pushn rs 0) s
      (fun t => (t.mem.readWord 0).toNat = uwrap16 (getReg s rs) ∧ t.pc = s.pc + 1) ∧
    Completes (.popr rs 0) s (fun t => t.run = s.run ∧ t.pc = s.pc + 1)) ∧
  (∀ (s : State) (rx ry : Reg), getReg s ry = 0 →
    Completes (.div 0 rx ry) s (fun t => t.run = .faulted) ∧
    Completes (.mod 0 rx ry) s (fun t => t.run = .faulted)) ∧
  (∀ (s : State) (addr : Int), Completes (.call 0 addr) s (fun t => t.pc = addr))

/-- R32: a read in [0, 255] gives the word there, unsigned, out of it the bounds fault; and a word of
32768 or more enters a register as itself minus 65536, by `load`, `loadi` and `popr` alike. -/
def Obligations.MemReadInRangeOrFaults : Prop :=
  (∀ (s : State) (a : Int), 0 ≤ a → a ≤ 255 →
    memRead s a = .ok (s.mem.readWord a.toNat) ∧ (s.mem.readWord a.toNat).toNat ≤ 65535) ∧
  (∀ (s : State) (a : Int), a < 0 ∨ 255 < a → memRead s a = .error (.memoryBoundsFault a)) ∧
  (∀ (s : State) (r : Reg) (addr : Int), r ≠ 0 → inRange addr →
    32768 ≤ (s.mem.readWord addr.toNat).toNat →
    Completes (.load r addr) s (fun t => getReg t r = (s.mem.readWord addr.toNat).toNat - 65536)) ∧
  (∀ (s : State) (rd ra : Reg), rd ≠ 0 → inRange (getReg s ra) →
    32768 ≤ (s.mem.readWord (getReg s ra).toNat).toNat →
    Completes (.loadi rd ra) s
      (fun t => getReg t rd = (s.mem.readWord (getReg s ra).toNat).toNat - 65536) ∧
    (rd ≠ ra → Completes (.popr rd ra) s
      (fun t => getReg t rd = (s.mem.readWord (getReg s ra).toNat).toNat - 65536)))

/-- R33: a write in [0, 255] changes the word there and nothing else, out of it raises the bounds
fault; `storei` and `pushn` put the unsigned reading of their register into memory; and after
`store r, addr` then `load r2, addr` the word is the unsigned reading of `r` and `r2` holds exactly
the signed value `r` had. -/
def Obligations.MemWriteThenReadRoundTrip : Prop :=
  (∀ (s : State) (a v : Int), 0 ≤ a → a ≤ 255 → 0 ≤ v → v ≤ 65535 →
    ∃ t, memWrite s a v = .ok t ∧ StoresWord s t a.toNat v ∧
      (∀ b : Nat, b ≠ a.toNat → t.mem.readWord b = s.mem.readWord b) ∧
      t.pc = s.pc ∧ SameRegs s t ∧ SamePorts s t ∧ SameStatus s t) ∧
  (∀ (s : State) (a v : Int), a < 0 ∨ 255 < a → memWrite s a v = .error (.memoryBoundsFault a)) ∧
  (∀ (s : State) (r r2 : Reg) (addr : Int), r2 ≠ 0 → inRange addr →
    Completes (.store r addr) s (fun t =>
      (t.mem.readWord addr.toNat).toNat = uwrap16 (getReg s r) ∧
      Completes (.load r2 addr) t (fun u => getReg u r2 = getReg s r))) ∧
  (∀ (s : State) (rs ra : Reg), inRange (getReg s ra) →
    Completes (.storei rs ra) s
      (fun t => (t.mem.readWord (getReg s ra).toNat).toNat = uwrap16 (getReg s rs)) ∧
    Completes (.pushn rs ra) s
      (fun t => (t.mem.readWord (getReg s ra).toNat).toNat = uwrap16 (getReg s rs)))

/-- The model's canonical form (log 1): the empty memory has it, every word write keeps it, and two
canonical memories that read alike in every cell are the same list. -/
def Obligations.CanonicalMemoryIsKeptAndUnique : Prop :=
  Memory.wf [] ∧
  (∀ (m : Memory) (a : Nat) (w : Word), m.wf → a ≤ 255 → Memory.wf (m.writeWord a w)) ∧
  (∀ m m' : Memory, m.wf → m'.wf → (∀ a : Nat, m.readByte a = m'.readByte a) → m = m')

/-- R44 and R42, with R120 and R121: what `store`, `storei` and `pushn` store is what a fetch at that
address reads, whatever the address, and the very next fetch where the address is that of the next
word; and after a jump the fetch reads the word at the target. -/
def Obligations.StoresAndJumpsReachTheNextFetch : Prop :=
  let fetched := fun (a : Int) (v : Int) (s t : State) =>
    ∃ w : Word, (w.toNat : Int) = uwrap16 v ∧ fetch (jumpTo t a) = .ok w ∧
      (a = s.pc + 1 → fetch t = .ok w)
  (∀ (s : State) (r : Reg) (addr : Int), inRange (directAddr addr) →
    Completes (.store r addr) s (fetched (directAddr addr) (getReg s r) s)) ∧
  (∀ (s : State) (rs ra : Reg), inRange (indirectAddr s ra) →
    Completes (.storei rs ra) s (fetched (indirectAddr s ra) (getReg s rs) s) ∧
    Completes (.pushn rs ra) s (fetched (indirectAddr s ra) (getReg s rs) s)) ∧
  (∀ (s : State) (addr : Int), inRange addr →
    Completes (.jump addr) s (fun t => fetch t = .ok (s.mem.readWord addr.toNat)) ∧
    Completes (.jumpi addr) s (fun t => fetch t = .ok (s.mem.readWord addr.toNat)))

/-! ## Encoding -/

/-- R52 to R55: what each of the codes `z`, `r`, `u`, `s` takes from the word at cursor `c`, and
where it leaves the cursor. -/
def Obligations.FieldCodesSliceBelowTheCursor : Prop :=
  ∀ (w : Word) (c : Nat) (fs : List FieldCode), c ≤ 12 →
    let value := decodeFrom w
    (4 ≤ c → value c (.z :: fs) = value (c - 4) fs) ∧
    (4 ≤ c → value c (.r :: fs) = ((w.toNat / 2 ^ (c - 4) % 16 : Nat) : Int) :: value (c - 4) fs) ∧
    (8 ≤ c → value c (.u :: fs) = ((w.toNat / 2 ^ (c - 8) % 256 : Nat) : Int) :: value (c - 8) fs) ∧
    (8 ≤ c → value c (.s :: fs) =
      sext 8 ((w.toNat / 2 ^ (c - 8) % 256 : Nat) : Int) :: value (c - 8) fs)

/-- R56 and R57 (the cursor of `n` is the spec's own choice, D4, log 4): the decoder starts at bit
12, and `n` yields the whole word, signed. -/
def Obligations.WholeWordFieldIsSigned : Prop :=
  ∀ w : Word, decodeOperands w [.n] = [sext 16 w.toNat] ∧
    ∀ fs, decodeOperands w fs = decodeFrom w 12 fs

/-- R57: a field string is well-formed when it holds `n` alone, or no `n` and 4 bits for each `z` and
`r` and 8 for each `u` and `s` add up to at most 12; and a table is refused exactly when some row of it
has a string that is not, whatever word would be fetched and whatever row would match (that it is the
step that refuses it is the model's choice, log 16). -/
def Obligations.IllFormedTableIsRefused : Prop :=
  (∀ fs : List FieldCode, fieldsOk fs = true ↔
    (.n ∈ fs → fs = [.n]) ∧
    4 * (fs.count .z + fs.count .r) + 8 * (fs.count .u + fs.count .s) ≤ 12) ∧
  ∀ (table : List Row) (s : State),
    cycle table s = .refused .illFormedTable ↔ ∃ row ∈ table, fieldsOk row.fields = false

/-- R51 with U2 (the pairing of values with operand names is D22; taking a value from a field of
another code is the model's reading, log 20): in a well-formed row of any table, whatever its field
codes, a matched word is the instruction of the row's mnemonic whose operands are the first values the
fields yield. Model choices of log 20: where there is no such instruction (a name without a value, a
register operand that is no register) the step is refused, and the word of a `data` row is the whole
word. Three instances spell the values out: `jump` with `n` (signed whole word), `loadn` with `ru`
(unsigned), `load` with `rs` (signed). A direct address so yielded outside [0, 255] makes `load` and
`store` take the bounds fault of that address (code D5, log 11; the record's registers D17, log 9). -/
def Obligations.FieldsOfAnotherTableYieldTheirValues : Prop :=
  (∀ (row : Row) (w : Word), fieldsOk row.fields = true →
    let fits := fun i : Instr =>
      i.mnemonic = row.mnemonic ∧ i.operands <+: decodeOperands w row.fields
    (row.mnemonic ≠ .data → ∀ i, decodeRow row w = .instr i ↔ fits i) ∧
    (row.mnemonic ≠ .data → (decodeRow row w = .unfit row.mnemonic ↔ ∀ i, ¬ fits i)) ∧
    (row.mnemonic = .data → decodeRow row w = .instr (.data w))) ∧
  (∀ (table : List Row) (s : State) (w : Word) (row : Row), tableOk table = true →
    s.run = .running → fetch s = .ok w → firstMatch table w = some row →
    (∀ i, decodeRow row w = .instr i → cycle table s = exec i s) ∧
    (decodeRow row w = .unfit row.mnemonic → cycle table s = .refused .operandsUnfit)) ∧
  (∀ pattern mask w : Word,
    decodeRow ⟨pattern, mask, .jump, [.n]⟩ w = .instr (.jump (sext 16 w.toNat)) ∧
    decodeRow ⟨pattern, mask, .loadn, [.r, .u]⟩ w =
      .instr (.loadn (nibbleAt w 8) ((w.toNat % 256 : Nat) : Int)) ∧
    decodeRow ⟨pattern, mask, .load, [.r, .s]⟩ w =
      .instr (.load (nibbleAt w 8) (sext 8 ((w.toNat % 256 : Nat) : Int)))) ∧
  ∀ (s : State) (r : Reg) (addr : Int), ¬ inRange addr →
    (Completes (.load r addr) s fun t => FaultTaken s t (.memoryBoundsFault addr) s.inPos) ∧
    (Completes (.store r addr) s fun t => FaultTaken s t (.memoryBoundsFault addr) s.inPos)

/-- R58: the row returned is the FIRST row with `(word & mask) = pattern`, and there is none exactly
when no row matches. -/
def Obligations.FirstMatchingRowWins : Prop :=
  ∀ (table : List Row) (w : Word),
    (∀ row, firstMatch table w = some row ↔
      ∃ before after, table = before ++ row :: after ∧ w &&& row.mask = row.pattern ∧
        ∀ r ∈ before, w &&& r.mask ≠ r.pattern) ∧
    (firstMatch table w = none ↔ ∀ row ∈ table, w &&& row.mask ≠ row.pattern)

/-- R59 for the default table (the spec's own, D1, log 4): no row has a pattern bit outside its mask,
every field string is well-formed, and every row is the first match of some word. -/
def Obligations.DefaultTableIsWellFormed : Prop :=
  ∀ row ∈ Config.encTable, row.pattern &&& ~~~row.mask = 0 ∧ fieldsOk row.fields = true ∧
    ∃ w, firstMatch Config.encTable w = some row

/-- Words written out from the pattern column of R60 (the spec's own table, D1, log 4), one or more
for each family, decode to the instructions they stand for (vectors of 95_test_vectors.md VD). -/
def Obligations.SpecWordsDecode : Prop :=
  decode 0b0000000000000000 = .instr .halt ∧
  decode 0b0000111100000001 = .instr (.read 15) ∧
  decode 0b0000111111110011 = .instr (.jumpi 255) ∧
  decode 0b0001000110000000 = .instr (.loadn 1 (-128)) ∧
  decode 0b0100001000010010 = .instr (.popr 2 1) ∧
  decode 0b0110000100100000 = .instr (.mov 1 2) ∧
  decode 0b0110000100100001 = .instr (.add 1 2 1) ∧
  decode 0b0111001100000100 = .instr (.neg 3 4) ∧
  decode 0b1011111000011110 = .instr (.call 14 30) ∧
  decode 0b1101000100001001 = .instr (.jnez 1 9) ∧
  decode 0b0100000100101111 = .instr (.data 0x412F)

/-- Every well-formed instruction is what its own encoding decodes to (R60, R68; the default table,
log 4). -/
def Obligations.DecodeOfEncode : Prop :=
  ∀ i : Instr, i.wellFormed = true → decode (encode i) = .instr i

/-- Every word decodes, to a well-formed instruction, and encodes back to itself: each word has one
meaning and no bit of it is dropped (R61, R64; the default table, log 4). -/
def Obligations.EncodeOfDecode : Prop :=
  ∀ w : Word, ∃ i, decode w = .instr i ∧ i.wellFormed = true ∧ encode i = w

/-- R63: where an earlier row claims a general form's word, the general form does exactly what the
claimed reading does, in every state. -/
def Obligations.ShadowedFormsHaveTheSameEffect : Prop :=
  ∀ (s : State) (rd rx : Reg) (addr : Int),
    (∃ t, exec (.add rd rx 0) s = .next t ∧ exec (.mov rd rx) s = .next t) ∧
    (∃ t, exec (.sub rd 0 rx) s = .next t ∧ exec (.neg rd rx) s = .next t) ∧
    (∃ t, exec (.call 0 addr) s = .next t ∧ exec (.jump addr) s = .next t) ∧
    (∃ t, exec (.mov 0 0) s = .next t ∧ exec .nop s = .next t) ∧
    (∃ t, exec (.add 0 0 0) s = .next t ∧ exec .nop s = .next t)

/-! ## The step -/

/-- A running step at an address of memory runs the instruction the word there decodes to, and does
nothing around it (R138). -/
def Obligations.StepRunsTheDecodedInstruction : Prop :=
  ∀ (s : State) (i : Instr), s.run = .running → inRange s.pc →
    decode (s.mem.readWord s.pc.toNat) = .instr i → i.wellFormed = true → step s = exec i s

/-- R16 (D6, log 10), R44 and the fault entry of R136 (code and information D5, log 11; the record's
registers D17, log 9): with the pc past the last word, or at no address at all, nothing is decoded;
the fetch raises the bounds fault of the pc, whatever memory holds. -/
def Obligations.FetchPastMemoryFaults : Prop :=
  ∀ s : State, s.run = .running → s.pc < 0 ∨ 256 ≤ s.pc →
    ∃ t, step s = .next t ∧ FaultTaken s t (.memoryBoundsFault s.pc) s.inPos

/-- R17 (as a step that changes nothing, the model's choice, log 7): Halted and Faulted are
absorbing. -/
def Obligations.StoppedMachineStaysAsItIs : Prop :=
  ∀ s : State, s.run = .halted ∨ s.run = .faulted → step s = .next s

/-- R138 with two choices of the model, that a held `read` (log 6) and a stopped machine (log 7) answer
a next state too: every step answers a next state; a stopped machine keeps its run state, and a
running one is halted by `halt` and `data` alone. -/
def Obligations.EveryStepAnswersANextState : Prop :=
  ∀ s : State, ∃ t, step s = .next t ∧
    (s.run ≠ .running → t.run = s.run) ∧
    (s.run = .running → t.run = .halted →
      ∃ w, fetch s = .ok w ∧ (decode w = .instr .halt ∨ decode w = .instr (.data w)))

/-- R64 and R65 (the table is the spec's own, D1 and D3, log 4; the fault's code and information are
D5, log 11, its record's registers D17, log 9): with rows 1 to 26 alone a stray word raises the
decode fault that records it, where the default table runs it as `data`; on every other word the
machine steps alike under both. -/
def Obligations.TableWithoutDataRowFaultsOnStrayWords : Prop :=
  ∀ (s : State) (w : Word), s.run = .running → fetch s = .ok w →
    (isStray w = true → step s = exec (.data w) s ∧
      ∃ t, cycle (Config.encTable.take 26) s = .next t ∧ FaultTaken s t (.decodeFault w) s.inPos) ∧
    (isStray w = false → cycle (Config.encTable.take 26) s = step s)

/-- R131: with any table whose field strings are well-formed, a fetched word that matches no row
raises the decode fault: it records the word, and the pc stays at its address (the code is D5, log
11; the record's registers D17, log 9). -/
def Obligations.UnmatchedWordRaisesDecodeFault : Prop :=
  ∀ (table : List Row) (s : State) (w : Word), s.run = .running → fetch s = .ok w →
    (∀ row ∈ table, fieldsOk row.fields = true) →
    (∀ row ∈ table, w &&& row.mask ≠ row.pattern) →
    ∃ t, cycle table s = .next t ∧ FaultTaken s t (.decodeFault w) s.inPos

/-- The machine after reset satisfies the invariant (what its clauses rest on is named in
`EveryStepKeepsTheInvariant`). -/
def Obligations.InvariantHoldsAtReset : Prop := Invariant State.reset

/-- Every step keeps the invariant: the memory list stays canonical (the model's form, log 1), the pc
stays in [0, 256] (D6, log 10) and at most 255 once halted, the output stays in 16-bit range, the
cursor never passes the tokens supplied, the fault registers (codes and information D5, log 11) and
the model's `dump` field (log 9, its registers D17) are empty until a fault and agree with it
afterwards. -/
def Obligations.EveryStepKeepsTheInvariant : Prop :=
  ∀ s t : State, Invariant s → step s = .next t → Invariant t

/-- Every run, of any number of steps and from any machine that satisfies the invariant, answers a
next state that satisfies it: no run is refused, and none ends in a host fault. That held and stopped
machines answer a next state is the model's choice (log 6, log 7); the invariant's clauses rest on
log 1 (memory form), 10 (pc, D6), 11 (fault registers, D5) and 9 (dump, D17). -/
def Obligations.EveryRunKeepsTheInvariant : Prop :=
  ∀ (k : Nat) (s : State), Invariant s → ∃ t : State, core.run k s = .next t ∧ Invariant t

/-- R28 and R162, the values the source gives: pc 0, Running, every memory word 0, r0 reads 0. -/
def Obligations.ResetStartsRunningAtZero : Prop :=
  State.reset.pc = 0 ∧ State.reset.run = .running ∧ getReg State.reset 0 = 0 ∧
    ∀ a : Nat, State.reset.mem.readWord a = 0

/-- R160 and R161 (registers 0 and the ports' start are the spec's own choices D8 and D13, log 3 and
18; the refusal is D15, log 16): a launch of at most 256 words with their own length gives the machine
with the image in memory, zeros after it, and every other field at its reset value, and that machine
satisfies the invariant; any other length is refused; a load error never starts the block. -/
def Obligations.LaunchLoadsTheImage : Prop :=
  (∀ words : List Word, words.length ≤ 256 →
    ∃ t, launch (.image words words.length) = .next t ∧ Invariant t ∧
      (∀ a : Nat, t.mem.readWord a = words.getD a 0) ∧
      t.pc = 0 ∧ t.run = .running ∧ (∀ q, getReg t q = 0) ∧ t.faultCause = 0 ∧ t.faultInfo = 0 ∧
      t.input = [] ∧ t.inPos = 0 ∧ t.out = [] ∧ t.dump = none) ∧
  (∀ (words : List Word) (n : Nat), 256 < n ∨ n ≠ words.length →
    launch (.image words n) = .refused .launchPremise) ∧
  launch .loadError = .fault .loadError

/-! ## Whole-machine rules -/

/-- R15: how each instruction leaves the pc. That a held `read` answers the same state is the model's
choice (log 6). -/
def Obligations.PcRuleOfEveryInstruction : Prop :=
  ∀ s t : State,
    (exec .halt s = .next t → t.pc = s.pc) ∧
    (∀ w, exec (.data w) s = .next t → t.pc = s.pc) ∧
    (∀ addr, exec (.jumpi addr) s = .next t ∨ exec (.jump addr) s = .next t → t.pc = addr) ∧
    (∀ r addr, exec (.call r addr) s = .next t → t.pc = addr) ∧
    (∀ r addr, exec (.jeqz r addr) s = .next t →
      t.pc = if getReg s r = 0 then addr else s.pc + 1) ∧
    (∀ r addr, exec (.jgtz r addr) s = .next t →
      t.pc = if 0 < getReg s r then addr else s.pc + 1) ∧
    (∀ r addr, exec (.jltz r addr) s = .next t →
      t.pc = if getReg s r < 0 then addr else s.pc + 1) ∧
    (∀ r addr, exec (.jnez r addr) s = .next t →
      t.pc = if getReg s r ≠ 0 then addr else s.pc + 1) ∧
    (∀ i, s.run = .running → exec i s = .next t → t.run = .faulted → t.pc = s.pc) ∧
    (∀ i, s.run = .running → exec i s = .next t → t.run = .running →
      i.mnemonic ∉ [.jumpi, .jump, .call, .jeqz, .jgtz, .jltz, .jnez] →
      t.pc = s.pc + 1 ∨ ∃ r, i = .read r ∧ nextToken s = none ∧ t = s)

/-- R136, R137, R139 (codes D5, preciseness D19, dump D17: log 11, 17, 9): whenever a running step
ends in Faulted, exactly one fault has been taken from the state the step began in, with the cursor
moved past the token when it is the input fault. -/
def Obligations.FaultsArePrecise : Prop :=
  ∀ s t : State, s.run = .running → step s = .next t → t.run = .faulted →
    ∃ f, FaultTaken s t f (if f = .inputFault then s.inPos + 1 else s.inPos)

/-- R130, R132 to R134 (codes D5, log 11): which instructions fault in their execute phase, on what,
and with which class; every other instruction raises nothing. A direct address outside [0, 255] is
no operand of a well-formed instruction; a field of another table alone yields one (log 20). -/
def Obligations.OnlyTheNamedInstructionsFault : Prop :=
  ∀ (i : Instr) (s t : State), s.run = .running → exec i s = .next t → t.run = .faulted →
    (∃ r ra, (i = .loadi r ra ∨ i = .storei r ra ∨ i = .popr r ra ∨ i = .pushn r ra) ∧
      (getReg s ra < 0 ∨ 255 < getReg s ra) ∧ t.faultCause = 3 ∧ t.faultInfo = getReg s ra) ∨
    (∃ r addr, (i = .load r addr ∨ i = .store r addr) ∧ i.wellFormed = false ∧
      (addr < 0 ∨ 255 < addr) ∧ t.faultCause = 3 ∧ t.faultInfo = addr) ∨
    (∃ rd rx ry, (i = .div rd rx ry ∨ i = .mod rd rx ry) ∧ getReg s ry = 0 ∧
      t.faultCause = 4 ∧ t.faultInfo = 0) ∨
    (∃ r, i = .read r ∧ nextToken s = some .bad ∧ t.faultCause = 5 ∧ t.faultInfo = 0)

/-- R20 (conflict C3 settles `popr`): a step that changes any byte of memory runs `store`, `storei`
or `pushn`. -/
def Obligations.OnlyStoresChangeMemory : Prop :=
  ∀ s t : State, step s = .next t → ¬ SameMemory s t →
    ∃ w r, fetch s = .ok w ∧
      ((∃ addr, decode w = .instr (.store r addr)) ∨ (∃ ra, decode w = .instr (.storei r ra)) ∨
        ∃ ra, decode w = .instr (.pushn r ra))

/-- R27 and R144: no step reads the output history, the fault registers or the dump port. Two
machines that differ only in them step alike, and what the step emits is the same; a step that takes
a fault leaves both with the same fault registers and dump, and any other step leaves those of each
as they were. -/
def Obligations.StepsCannotReadOutputOrFaultRegisters : Prop :=
  ∀ (s t : State) (o : List Int) (cause : Nat) (info : Int) (d : Option DumpRecord),
    step s = .next t →
    ∃ (t' : State) (new : List Int),
      step { s with out := o, faultCause := cause, faultInfo := info, dump := d } = .next t' ∧
      t.out = s.out ++ new ∧ t'.out = o ++ new ∧
      t'.regs = t.regs ∧ t'.pc = t.pc ∧ t'.run = t.run ∧ t'.mem = t.mem ∧
      t'.input = t.input ∧ t'.inPos = t.inPos ∧
      (s.run = .running ∧ t.run = .faulted →
        t'.faultCause = t.faultCause ∧ t'.faultInfo = t.faultInfo ∧ t'.dump = t.dump) ∧
      (¬ (s.run = .running ∧ t.run = .faulted) →
        (t.faultCause = s.faultCause ∧ t.faultInfo = s.faultInfo ∧ t.dump = s.dump) ∧
        t'.faultCause = cause ∧ t'.faultInfo = info ∧ t'.dump = d)

/-- R22, R143, R165: the environment's only influence is the token a `read` waits for. A step that is
not holding does the same when further tokens are supplied first. -/
def Obligations.SupplyingTokensCommutesWithSteps : Prop :=
  ∀ (s t : State) (ts : List Token), ¬ Holding s → step s = .next t →
    step (s.supply ts) = .next (t.supply ts)

/-- R22, R150 (the hold as a step that changes nothing is the model's choice, log 6): a holding
machine stays as it is, and a token supplied at the cursor lifts the hold: an integer completes the
`read`, a `Bad` token takes the input fault (R134, R136; its code and information are D5, log 11, the
record's registers D17, log 9). -/
def Obligations.HoldIsLiftedBySupplyingAToken : Prop :=
  ∀ s : State, Holding s → step s = .next s ∧
    (s.inPos = s.input.length →
      (∀ v, ∃ t, step (s.supply [.int v]) = .next t ∧ t.run = .running ∧ t.pc = s.pc + 1 ∧
        t.inPos = s.inPos + 1) ∧
      ∃ t, step (s.supply [.bad]) = .next t ∧
        FaultTaken (s.supply [.bad]) t .inputFault (s.inPos + 1))

/-- R141 (which registers is D17, log 9): the record holds the pc, the 15 registers r1 to r15 in index
order, and 16 rows of 16 words, word 16k + j at place j of row k, unsigned. -/
def Obligations.DumpRecordHoldsTheWholeState : Prop :=
  ∀ s : State, (dumpRecord s).pc = s.pc ∧
    (dumpRecord s).regs.length = 15 ∧
    (∀ k : Reg, k ≠ 0 → (dumpRecord s).regs[k.toNat - 1]? = some (getReg s k)) ∧
    (dumpRecord s).rows.length = 16 ∧
    (∀ row ∈ (dumpRecord s).rows, row.length = 16) ∧
    ∀ k j : Nat, k < 16 → j < 16 →
      (dumpRecord s).rows[k]?.bind (·[j]?) = some (s.mem.readWord (16 * k + j)).toNat

/-! ## System and input/output -/

/-- R80: `halt` ends the run and changes nothing else. -/
def Obligations.HaltEndsTheRun : Prop :=
  ∀ s : State, Completes .halt s fun t =>
    t.run = .halted ∧ t.pc = s.pc ∧ SameRegs s t ∧ SameMemory s t ∧ SamePorts s t ∧
    t.faultCause = s.faultCause ∧ t.faultInfo = s.faultInfo ∧ t.dump = s.dump

/-- R84 (a clean end is the spec's own reading, D10, log 13): `data` ends the run as `halt` does,
whatever its word. -/
def Obligations.DataEndsTheRun : Prop :=
  ∀ (s : State) (w : Word), Completes (.data w) s fun t =>
    t.run = .halted ∧ t.pc = s.pc ∧ SameRegs s t ∧ SameMemory s t ∧ SamePorts s t ∧
    t.faultCause = s.faultCause ∧ t.faultInfo = s.faultInfo ∧ t.dump = s.dump

/-- R81: `nop` advances the pc and has no other effect. -/
def Obligations.NopOnlyAdvances : Prop :=
  ∀ s : State, Completes .nop s fun t => OnlySetsPc s t (s.pc + 1)

/-- R82 (any integer, wrapped: D11; r0 takes the token too: D21; log 14): an available integer is
taken, stored through the wrap or dropped for r0, and the pc advances. -/
def Obligations.ReadStoresTheInteger : Prop :=
  ∀ (s : State) (r : Reg) (v : Int), nextToken s = some (.int v) →
    Completes (.read r) s fun t =>
      WritesReg s t r v ∧ t.pc = s.pc + 1 ∧ t.inPos = s.inPos + 1 ∧ t.input = s.input ∧
      t.out = s.out ∧ SameMemory s t ∧ SameStatus s t

/-- R82, R134, R136: a `Bad` token is consumed and takes the input fault (code and information D5, log
11; the record's registers D17, log 9), with r0 as destination too (D21, log 14); with no token
supplied nothing changes (the model's choice of a next state, log 6). -/
def Obligations.ReadFaultsOnBadAndHoldsOnNone : Prop :=
  ∀ (s : State) (r : Reg),
    (nextToken s = some .bad →
      Completes (.read r) s fun t => FaultTaken s t .inputFault (s.inPos + 1)) ∧
    (nextToken s = none → exec (.read r) s = .next s)

/-- R83: `write` appends the register's signed value to the output and advances. -/
def Obligations.WriteEmitsTheSignedValue : Prop :=
  ∀ (s : State) (r : Reg), Completes (.write r) s fun t =>
    t.out = s.out ++ [getReg s r] ∧ t.pc = s.pc + 1 ∧ SameRegs s t ∧ SameMemory s t ∧
    t.input = s.input ∧ t.inPos = s.inPos ∧ SameStatus s t

/-! ## Data movement -/

/-- R90: `loadn` writes its number, a number in [-128, 127] as it stands. -/
def Obligations.LoadnWritesTheConstant : Prop :=
  ∀ (s : State) (r : Reg) (n : Int), Completes (.loadn r n) s fun t =>
    OnlyWritesReg s t r n ∧ (r ≠ 0 → -128 ≤ n → n ≤ 127 → getReg t r = n)

/-- R91: `load` writes the word at the direct address, in [0, 255], read as signed. -/
def Obligations.LoadReadsTheDirectAddress : Prop :=
  ∀ (s : State) (r : Reg) (addr : Int), 0 ≤ addr → addr ≤ 255 →
    Completes (.load r addr) s fun t =>
      OnlyWritesReg s t r (s.mem.readWord (directAddr addr).toNat).toInt

/-- R92: `store` puts the register's unsigned reading at the direct address, in [0, 255], and changes
no other byte. -/
def Obligations.StoreWritesTheDirectAddress : Prop :=
  ∀ (s : State) (r : Reg) (addr : Int), 0 ≤ addr → addr ≤ 255 →
    Completes (.store r addr) s fun t =>
      StoresWord s t (directAddr addr).toNat (uwrap16 (getReg s r)) ∧
      t.pc = s.pc + 1 ∧ SameRegs s t ∧ SamePorts s t ∧ SameStatus s t

/-- R93: `loadi` with the address register in [0, 255] writes the word there. -/
def Obligations.LoadiReadsTheComputedAddress : Prop :=
  ∀ (s : State) (rd ra : Reg), 0 ≤ getReg s ra → getReg s ra ≤ 255 →
    Completes (.loadi rd ra) s fun t =>
      OnlyWritesReg s t rd (s.mem.readWord (indirectAddr s ra).toNat).toInt

/-- R94: `storei` with the address register in [0, 255] stores there and changes no other byte. -/
def Obligations.StoreiWritesTheComputedAddress : Prop :=
  ∀ (s : State) (rs ra : Reg), 0 ≤ getReg s ra → getReg s ra ≤ 255 →
    Completes (.storei rs ra) s fun t =>
      StoresWord s t (indirectAddr s ra).toNat (uwrap16 (getReg s rs)) ∧
      t.pc = s.pc + 1 ∧ SameRegs s t ∧ SamePorts s t ∧ SameStatus s t

/-- R95: `popr` reads at the old address, then the address register steps down by one; only the two
registers it names change, and r0 in either place swallows its write. With one register in both
places (the spec's own choice D9, log 12) the loaded value is what is stepped down. -/
def Obligations.PoprReadsThenDecrements : Prop :=
  ∀ (s : State) (rd ra : Reg), 0 ≤ getReg s ra → getReg s ra ≤ 255 →
    Completes (.popr rd ra) s fun t =>
      (∀ q, q ≠ rd → q ≠ ra → getReg t q = getReg s q) ∧
      (rd ≠ ra → rd ≠ 0 → getReg t rd = (s.mem.readWord (indirectAddr s ra).toNat).toInt) ∧
      (rd ≠ ra → ra ≠ 0 → getReg t ra = getReg s ra - 1) ∧
      (rd = ra → ra ≠ 0 →
        getReg t ra = wrap16 ((s.mem.readWord (indirectAddr s ra).toNat).toInt - 1)) ∧
      getReg t 0 = 0 ∧ t.pc = s.pc + 1 ∧ SameMemory s t ∧ SamePorts s t ∧ SameStatus s t

/-- R96: `pushn` stores at the old address, then the address register steps up by one; no other
register and no other byte changes. -/
def Obligations.PushnStoresThenIncrements : Prop :=
  ∀ (s : State) (rs ra : Reg), 0 ≤ getReg s ra → getReg s ra ≤ 255 →
    Completes (.pushn rs ra) s fun t =>
      StoresWord s t (indirectAddr s ra).toNat (uwrap16 (getReg s rs)) ∧
      (∀ q, q ≠ ra → getReg t q = getReg s q) ∧
      (ra ≠ 0 → getReg t ra = getReg s ra + 1) ∧ getReg t 0 = 0 ∧
      t.pc = s.pc + 1 ∧ SamePorts s t ∧ SameStatus s t

/-- R97, R132 (negative addresses D12, log 15; codes D5, log 11; the record's registers D17, log 9):
with the address register outside [0, 255], below or above, all four indirect forms raise the bounds
fault of that address and change nothing else. -/
def Obligations.IndirectFormsFaultOutOfRange : Prop :=
  ∀ (s : State) (r ra : Reg), getReg s ra < 0 ∨ 255 < getReg s ra →
    ∀ i ∈ [Instr.loadi r ra, .storei r ra, .popr r ra, .pushn r ra],
      Completes i s fun t => FaultTaken s t (.memoryBoundsFault (getReg s ra)) s.inPos

/-- R95, R96 (the opening sentence of R95's note): `pushn rs, ra` followed by `popr rd, ra` reads the
word AFTER the pushed one and leaves the address register where it was before the push. -/
def Obligations.PushThenPopReadsTheNextWord : Prop :=
  ∀ (s : State) (rs rd ra : Reg), rd ≠ ra → rd ≠ 0 → ra ≠ 0 → 0 ≤ getReg s ra → getReg s ra ≤ 254 →
    Completes (.pushn rs ra) s fun t => Completes (.popr rd ra) t fun u =>
      getReg u rd = (s.mem.readWord (getReg s ra + 1).toNat).toInt ∧ getReg u ra = getReg s ra

/-! ## Arithmetic -/

/-- R100 and R101: `addn` writes the wrapped sum with the signed number, `mov` the copy. -/
def Obligations.AddnAndMovWriteOneRegister : Prop :=
  ∀ (s : State) (rd rx : Reg) (n : Int),
    (Completes (.addn rd n) s fun t => OnlyWritesReg s t rd (getReg s rd + n)) ∧
    (Completes (.mov rd rx) s fun t => OnlyWritesReg s t rd (getReg s rx))

/-- R102 to R105: `add`, `neg`, `sub`, `mul` write the wrap of the exact integer result, both sources
read before the destination is written, and never fault. -/
def Obligations.ExactResultsAreWrapped : Prop :=
  ∀ (s : State) (rd rx ry : Reg),
    (Completes (.add rd rx ry) s fun t => OnlyWritesReg s t rd (getReg s rx + getReg s ry)) ∧
    (Completes (.neg rd rx) s fun t => OnlyWritesReg s t rd (-getReg s rx)) ∧
    (Completes (.sub rd rx ry) s fun t => OnlyWritesReg s t rd (getReg s rx - getReg s ry)) ∧
    (Completes (.mul rd rx ry) s fun t => OnlyWritesReg s t rd (getReg s rx * getReg s ry))

/-- R108: the low 16 bits of a sum, of a sum with a constant, of a difference, a negation and a product
are those of the same operation on the operands' bits, signed or unsigned alike. -/
def Obligations.WrappedArithmeticIsModular : Prop :=
  ∀ (s : State) (rd rx ry : Reg) (n : Int), rd ≠ 0 →
    let bits := fun (t : State) (r : Reg) => BitVec.ofInt 16 (getReg t r)
    (Completes (.add rd rx ry) s fun t => bits t rd = bits s rx + bits s ry) ∧
    (Completes (.addn rd n) s fun t => bits t rd = bits s rd + BitVec.ofInt 16 n) ∧
    (Completes (.sub rd rx ry) s fun t => bits t rd = bits s rx - bits s ry) ∧
    (Completes (.neg rd rx) s fun t => bits t rd = -bits s rx) ∧
    (Completes (.mul rd rx ry) s fun t => bits t rd = bits s rx * bits s ry)

/-- R106, R107, R109 (rounding toward minus infinity is the spec's own default, D7, log 5): with a
non-zero divisor `div` writes the quotient and `mod` the remainder of the one division whose
remainder is 0 or has the divisor's sign and is smaller in size. -/
def Obligations.DivAndModRoundTowardMinusInfinity : Prop :=
  ∀ (s : State) (rd rx ry : Reg), getReg s ry ≠ 0 →
    ∃ q m : Int, getReg s rx = getReg s ry * q + m ∧
      ((0 ≤ m ∧ m < getReg s ry) ∨ (getReg s ry < m ∧ m ≤ 0)) ∧
      (Completes (.div rd rx ry) s fun t => OnlyWritesReg s t rd q) ∧
      (Completes (.mod rd rx ry) s fun t => OnlyWritesReg s t rd m ∧
        (rd ≠ 0 → getReg t rd = m))

/-- R106, R107, R111, R133 (code D5, log 11; the record's registers D17, log 9): a zero divisor raises
the arithmetic fault, r0 as destination or not, and nothing else changes. -/
def Obligations.ZeroDivisorFaults : Prop :=
  ∀ (s : State) (rd rx ry : Reg), getReg s ry = 0 →
    (Completes (.div rd rx ry) s fun t => FaultTaken s t .arithmeticFault s.inPos) ∧
    (Completes (.mod rd rx ry) s fun t => FaultTaken s t .arithmeticFault s.inPos)

/-- R109 (both rounding modes; which is the default is D7, log 5): the division identity, the size and
sign of the modulus, that the modes agree when the operands have one sign, the dividend is 0 or the
division is exact, and that otherwise floor is one less and its modulus larger by the divisor. -/
def Obligations.BothDivisionModes : Prop :=
  ∀ a b : Int, b ≠ 0 →
    (∀ mode, a = b * fdiv mode a b + fmod mode a b ∧ |fmod mode a b| < |b|) ∧
    (0 < b → 0 ≤ fmod .floor a b) ∧ (b < 0 → fmod .floor a b ≤ 0) ∧
    (0 ≤ a → 0 ≤ fmod .trunc a b) ∧ (a ≤ 0 → fmod .trunc a b ≤ 0) ∧
    ((0 ≤ a ∧ 0 < b) ∨ (a ≤ 0 ∧ b < 0) ∨ b ∣ a →
      fdiv .floor a b = fdiv .trunc a b ∧ fmod .floor a b = fmod .trunc a b) ∧
    (((a < 0 ∧ 0 < b) ∨ (0 < a ∧ b < 0)) ∧ ¬ b ∣ a →
      fdiv .floor a b = fdiv .trunc a b - 1 ∧ fmod .floor a b = fmod .trunc a b + b)

/-! ## Control transfer -/

/-- R120, R121: `jumpi` and `jump` set the pc to the address and change nothing else. -/
def Obligations.JumpsSetOnlyThePc : Prop :=
  ∀ (s : State) (addr : Int),
    (Completes (.jumpi addr) s fun t => OnlySetsPc s t addr) ∧
    (Completes (.jump addr) s fun t => OnlySetsPc s t addr)

/-- R122: `call` leaves the address of the call itself in the link register and jumps; at a pc in
memory nothing is lost by the wrap. -/
def Obligations.CallLinksItsOwnAddress : Prop :=
  ∀ (s : State) (r : Reg) (addr : Int), Completes (.call r addr) s fun t =>
    WritesReg s t r s.pc ∧ t.pc = addr ∧ SameMemory s t ∧ SamePorts s t ∧ SameStatus s t ∧
    (r ≠ 0 → 0 ≤ s.pc → s.pc ≤ 255 → getReg t r = s.pc)

/-- R123 to R126: the conditional jumps compare the register's signed value with zero, go to the
address or to the next word, and change nothing else. -/
def Obligations.ConditionalJumpsTestTheSignedValue : Prop :=
  ∀ (s : State) (r : Reg) (addr : Int),
    (Completes (.jeqz r addr) s fun t =>
      OnlySetsPc s t (if getReg s r = 0 then addr else s.pc + 1)) ∧
    (Completes (.jgtz r addr) s fun t =>
      OnlySetsPc s t (if 0 < getReg s r then addr else s.pc + 1)) ∧
    (Completes (.jltz r addr) s fun t =>
      OnlySetsPc s t (if getReg s r < 0 then addr else s.pc + 1)) ∧
    (Completes (.jnez r addr) s fun t =>
      OnlySetsPc s t (if getReg s r ≠ 0 then addr else s.pc + 1))
end

