-- ==== Sys2Proof/Laws/Decode.lean ====
section
/-! SUPPORT. The table-driven decoder seen nibble by nibble (spec/30_encoding.md R58, R60, R61): which row a word made of four nibbles hits, and where the fields of each format lie. -/

namespace Sys2Proof.Laws

/-- A word from its four nibbles, bits 15 to 12 first. -/
def ofNibbles (a b c d : BitVec 4) : Word := a ++ b ++ c ++ d

/-- The bits of two nibbles put together. -/
theorem getLsbD_byte (c d : BitVec 4) (i : Nat) :
    BitVec.getLsbD (w := 8) (c ++ d) i = if i < 4 then d.getLsbD i else c.getLsbD (i - 4) :=
  BitVec.getLsbD_append (x := c) (y := d)

/-- The bits of a word made of nibbles. -/
theorem getLsbD_ofNibbles (a b c d : BitVec 4) (i : Nat) :
    (ofNibbles a b c d).getLsbD i =
      if i < 4 then d.getLsbD i else if i < 8 then c.getLsbD (i - 4)
      else if i < 12 then b.getLsbD (i - 8) else a.getLsbD (i - 12) := by
  have h : (ofNibbles a b c d).getLsbD i = (a ++ b ++ c ++ d : BitVec (4 + 4 + 4 + 4)).getLsbD i := rfl
  rw [h, BitVec.getLsbD_append, BitVec.getLsbD_append, BitVec.getLsbD_append]
  split_ifs <;> first | rfl | omega

/-- Every word is made of its four nibbles. -/
theorem eq_ofNibbles (w : Word) :
    w = ofNibbles (w.extractLsb' 12 4) (w.extractLsb' 8 4) (w.extractLsb' 4 4) (w.extractLsb' 0 4) := by
  apply BitVec.eq_of_getLsbD_eq
  intro i hi
  simp only [getLsbD_ofNibbles, BitVec.getLsbD_extractLsb']
  split_ifs
  · simp [*]
  · simp only [show i - 4 < 4 by omega, show 4 + (i - 4) = i by omega, decide_true, Bool.true_and]
  · simp only [show i - 8 < 4 by omega, show 8 + (i - 8) = i by omega, decide_true, Bool.true_and]
  · simp only [show i - 12 < 4 by omega, show 12 + (i - 12) = i by omega, decide_true, Bool.true_and]

theorem ofNibbles_inj {a b c d a' b' c' d' : BitVec 4} :
    ofNibbles a b c d = ofNibbles a' b' c' d' ↔ a = a' ∧ b = b' ∧ c = c' ∧ d = d' := by
  constructor
  · intro h
    have key : ∀ i : Nat, (ofNibbles a b c d).getLsbD i = (ofNibbles a' b' c' d').getLsbD i :=
      fun i => by rw [h]
    simp only [getLsbD_ofNibbles] at key
    refine ⟨?_, ?_, ?_, ?_⟩ <;> apply BitVec.eq_of_getLsbD_eq <;> intro i hi
    · simpa only [show ¬ i + 12 < 4 by omega, show ¬ i + 12 < 8 by omega, if_false,
        show ¬ i + 12 < 12 by omega, show i + 12 - 12 = i by omega] using key (i + 12)
    · simpa only [show ¬ i + 8 < 4 by omega, show ¬ i + 8 < 8 by omega, if_false, if_true,
        show i + 8 < 12 by omega, show i + 8 - 8 = i by omega] using key (i + 8)
    · simpa only [show ¬ i + 4 < 4 by omega, show i + 4 < 8 by omega, if_false, if_true,
        show i + 4 - 4 = i by omega] using key (i + 4)
    · simpa only [hi, if_true] using key i
  · rintro ⟨rfl, rfl, rfl, rfl⟩; rfl

theorem and_ofNibbles (a b c d a' b' c' d' : BitVec 4) :
    ofNibbles a b c d &&& ofNibbles a' b' c' d' =
      ofNibbles (a &&& a') (b &&& b') (c &&& c') (d &&& d') := by
  apply BitVec.eq_of_getLsbD_eq
  intro i hi
  simp only [BitVec.getLsbD_and, getLsbD_ofNibbles]
  split_ifs <;> rfl

/-- A row hits a word when each nibble does. -/
theorem hits_ofNibbles (m : Mnemonic) (fs : List FieldCode) (a b c d p q r t x y z w : BitVec 4) :
    Row.hits ⟨ofNibbles p q r t, ofNibbles x y z w, m, fs⟩ (ofNibbles a b c d) =
      decide (a &&& x = p ∧ b &&& y = q ∧ c &&& z = r ∧ d &&& w = t) := by
  rw [Row.hits, and_ofNibbles, Bool.eq_iff_iff, beq_iff_eq, decide_eq_true_eq, ofNibbles_inj]

/-! ## Fields of a word made of nibbles -/

theorem nibble_8 (a b c d : BitVec 4) : nibbleAt (ofNibbles a b c d) 8 = b := by
  apply BitVec.eq_of_getLsbD_eq
  intro i hi
  simp only [nibbleAt, BitVec.getLsbD_extractLsb', getLsbD_ofNibbles, hi, decide_true,
    Bool.true_and, show ¬ 8 + i < 4 by omega, show ¬ 8 + i < 8 by omega, if_false, if_true,
    show 8 + i < 12 by omega, show 8 + i - 8 = i by omega]

theorem nibble_4 (a b c d : BitVec 4) : nibbleAt (ofNibbles a b c d) 4 = c := by
  apply BitVec.eq_of_getLsbD_eq
  intro i hi
  simp only [nibbleAt, BitVec.getLsbD_extractLsb', getLsbD_ofNibbles, hi, decide_true,
    Bool.true_and, show ¬ 4 + i < 4 by omega, show 4 + i < 8 by omega, if_false, if_true,
    show 4 + i - 4 = i by omega]

theorem nibble_0 (a b c d : BitVec 4) : nibbleAt (ofNibbles a b c d) 0 = d := by
  apply BitVec.eq_of_getLsbD_eq
  intro i hi
  simp only [nibbleAt, BitVec.getLsbD_extractLsb', getLsbD_ofNibbles, hi, decide_true,
    Bool.true_and, Nat.zero_add, if_true]

theorem byte_4 (a b c d : BitVec 4) : byteAt (ofNibbles a b c d) 4 = b ++ c := by
  apply BitVec.eq_of_getLsbD_eq
  intro i hi
  rw [getLsbD_byte]
  simp only [byteAt, BitVec.getLsbD_extractLsb', getLsbD_ofNibbles, hi, decide_true,
    Bool.true_and, show ¬ 4 + i < 4 by omega, show 4 + i < 12 by omega, if_false, if_true]
  split_ifs <;> first | omega | (congr 1; omega)

theorem byte_0 (a b c d : BitVec 4) : byteAt (ofNibbles a b c d) 0 = c ++ d := by
  apply BitVec.eq_of_getLsbD_eq
  intro i hi
  rw [getLsbD_byte]
  simp only [byteAt, BitVec.getLsbD_extractLsb', getLsbD_ofNibbles, hi, decide_true,
    Bool.true_and, Nat.zero_add, if_true]

/-- Every 8-bit field is made of two nibbles. -/
theorem byte_eq_append (x : BitVec 8) : x = x.extractLsb' 4 4 ++ x.extractLsb' 0 4 := by
  apply BitVec.eq_of_getLsbD_eq
  intro i hi
  rw [getLsbD_byte]
  simp only [BitVec.getLsbD_extractLsb']
  split_ifs with h
  · simp only [h, decide_true, Bool.true_and, Nat.zero_add]
  · simp only [show i - 4 < 4 by omega, show 4 + (i - 4) = i by omega, decide_true, Bool.true_and]

/-! ## The default table, nibble by nibble -/

theorem and_full (a : BitVec 4) : a &&& 15#4 = a := by revert a; decide
theorem and_none (a : BitVec 4) : a &&& 0#4 = 0#4 := by simp

/-- Two nibbles put together. -/
def byte (c d : BitVec 4) : BitVec 8 := c ++ d

/-- A 4-bit field always names a register (R53). -/
@[simp] theorem asReg_nibble (x : BitVec 4) : asReg (x.toNat : Int) = some x := by
  have h := x.isLt
  rw [asReg, if_pos ⟨by omega, by omega⟩, BitVec.ofInt_natCast, BitVec.ofNat_toNat,
    BitVec.setWidth_eq]

/-- The instruction of a word by its nibbles: what the pattern column of R60 says, read as nested
case distinctions instead of an ordered table. -/
def byNibbles (a b c d : BitVec 4) : Instr :=
  if a = 0 then
    if b = 0 ∧ c = 0 ∧ d = 0 then .halt
    else if c = 0 ∧ d = 1 then .read b
    else if c = 0 ∧ d = 2 then .write b
    else if d = 3 then .jumpi (byte b c).toNat
    else .data (ofNibbles a b c d)
  else if a = 1 then .loadn b (byte c d).toInt
  else if a = 2 then .load b (byte c d).toNat
  else if a = 3 then .store b (byte c d).toNat
  else if a = 4 then
    if d = 0 then .loadi b c
    else if d = 1 then .storei b c
    else if d = 2 then .popr b c
    else if d = 3 then .pushn b c
    else .data (ofNibbles a b c d)
  else if a = 5 then .addn b (byte c d).toInt
  else if a = 6 then
    if b = 0 ∧ c = 0 ∧ d = 0 then .nop else if d = 0 then .mov b c else .add b c d
  else if a = 7 then if c = 0 then .neg b d else .sub b c d
  else if a = 8 then .mul b c d
  else if a = 9 then .div b c d
  else if a = 10 then .mod b c d
  else if a = 11 then if b = 0 then .jump (byte c d).toNat else .call b (byte c d).toNat
  else if a = 12 then .jeqz b (byte c d).toNat
  else if a = 13 then .jnez b (byte c d).toNat
  else if a = 14 then .jgtz b (byte c d).toNat
  else .jltz b (byte c d).toNat

/-- The default table with patterns and masks spelled as nibbles. -/
theorem table_nibbles : Config.encTable = [
  ⟨ofNibbles 0 0 0 0, ofNibbles 15 15 15 15, .halt, []⟩,
  ⟨ofNibbles 0 0 0 1, ofNibbles 15 0 15 15, .read, [.r]⟩,
  ⟨ofNibbles 0 0 0 2, ofNibbles 15 0 15 15, .write, [.r]⟩,
  ⟨ofNibbles 0 0 0 3, ofNibbles 15 0 0 15, .jumpi, [.u, .z]⟩,
  ⟨ofNibbles 1 0 0 0, ofNibbles 15 0 0 0, .loadn, [.r, .s]⟩,
  ⟨ofNibbles 2 0 0 0, ofNibbles 15 0 0 0, .load, [.r, .u]⟩,
  ⟨ofNibbles 3 0 0 0, ofNibbles 15 0 0 0, .store, [.r, .u]⟩,
  ⟨ofNibbles 4 0 0 0, ofNibbles 15 0 0 15, .loadi, [.r, .r]⟩,
  ⟨ofNibbles 4 0 0 1, ofNibbles 15 0 0 15, .storei, [.r, .r]⟩,
  ⟨ofNibbles 4 0 0 2, ofNibbles 15 0 0 15, .popr, [.r, .r]⟩,
  ⟨ofNibbles 4 0 0 3, ofNibbles 15 0 0 15, .pushn, [.r, .r]⟩,
  ⟨ofNibbles 5 0 0 0, ofNibbles 15 0 0 0, .addn, [.r, .s]⟩,
  ⟨ofNibbles 6 0 0 0, ofNibbles 15 15 15 15, .nop, []⟩,
  ⟨ofNibbles 6 0 0 0, ofNibbles 15 0 0 15, .mov, [.r, .r]⟩,
  ⟨ofNibbles 6 0 0 0, ofNibbles 15 0 0 0, .add, [.r, .r, .r]⟩,
  ⟨ofNibbles 7 0 0 0, ofNibbles 15 0 15 0, .neg, [.r, .z, .r]⟩,
  ⟨ofNibbles 7 0 0 0, ofNibbles 15 0 0 0, .sub, [.r, .r, .r]⟩,
  ⟨ofNibbles 8 0 0 0, ofNibbles 15 0 0 0, .mul, [.r, .r, .r]⟩,
  ⟨ofNibbles 9 0 0 0, ofNibbles 15 0 0 0, .div, [.r, .r, .r]⟩,
  ⟨ofNibbles 10 0 0 0, ofNibbles 15 0 0 0, .mod, [.r, .r, .r]⟩,
  ⟨ofNibbles 11 0 0 0, ofNibbles 15 15 0 0, .jump, [.z, .u]⟩,
  ⟨ofNibbles 11 0 0 0, ofNibbles 15 0 0 0, .call, [.r, .u]⟩,
  ⟨ofNibbles 12 0 0 0, ofNibbles 15 0 0 0, .jeqz, [.r, .u]⟩,
  ⟨ofNibbles 13 0 0 0, ofNibbles 15 0 0 0, .jnez, [.r, .u]⟩,
  ⟨ofNibbles 14 0 0 0, ofNibbles 15 0 0 0, .jgtz, [.r, .u]⟩,
  ⟨ofNibbles 15 0 0 0, ofNibbles 15 0 0 0, .jltz, [.r, .u]⟩,
  ⟨ofNibbles 0 0 0 0, ofNibbles 0 0 0 0, .data, [.n]⟩] := by decide

/-- R61: the ten formats' field strings are well-formed (R57). -/
theorem fieldsOk_formats : fieldsOk [] = true ∧ fieldsOk [.r] = true ∧ fieldsOk [.u, .z] = true ∧
    fieldsOk [.r, .s] = true ∧ fieldsOk [.r, .u] = true ∧ fieldsOk [.r, .r] = true ∧
    fieldsOk [.r, .r, .r] = true ∧ fieldsOk [.r, .z, .r] = true ∧ fieldsOk [.z, .u] = true ∧
    fieldsOk [.n] = true := by decide

@[simp] theorem decodeWith_nil (w : Word) : decodeWith [] w = .noMatch := rfl
/-- R58: the first row that hits decides; else the rest of the table does. -/
theorem decodeWith_cons (row : Row) (rest : List Row) (w : Word) :
    decodeWith (row :: rest) w = if row.hits w then decodeRow row w else decodeWith rest w := by
  rw [decodeWith, firstMatch]
  by_cases h : row.hits w = true
  · simp only [h, if_true]
  · simp only [h, if_false, Bool.false_eq_true]; rfl

theorem nibble_cases (a : BitVec 4) :
    a = 0#4 ∨ a = 1#4 ∨ a = 2#4 ∨ a = 3#4 ∨ a = 4#4 ∨ a = 5#4 ∨ a = 6#4 ∨ a = 7#4 ∨ a = 8#4 ∨
      a = 9#4 ∨ a = 10#4 ∨ a = 11#4 ∨ a = 12#4 ∨ a = 13#4 ∨ a = 14#4 ∨ a = 15#4 := by
  revert a; decide

/-- What the default table decodes a word to. -/
theorem decode_ofNibbles (a b c d : BitVec 4) :
    decode (ofNibbles a b c d) = .instr (byNibbles a b c d) := by
  unfold decode
  rw [table_nibbles]
  simp only [decodeWith_cons, decodeWith_nil, hits_ofNibbles, BitVec.ofNat_eq_ofNat, and_full,
    and_none, and_true, true_and, decide_eq_true_eq, if_true, decodeRow, fieldsOk_formats, assemble,
    decodeOperands, decodeFrom, ofReg, ofRegReg, ofRegRegReg, ofNum, ofRegNum, asReg_nibble,
    Option.map_some, Option.bind_some, byte, nibble_8, nibble_4, nibble_0, byte_4, byte_0, byNibbles, Nat.reduceSub]
  rcases nibble_cases a with h | h | h | h | h | h | h | h | h | h | h | h | h | h | h | h <;> subst h
  all_goals simp only [BitVec.reduceEq, if_false, if_true, false_and, true_and]
  all_goals (repeat' split) <;> rfl

/-! ## Encoded words as nibbles -/

/-- A word with an 8-bit field in its low half. -/
theorem append_byte (a b : BitVec 4) (x : BitVec 8) :
    (a ++ b ++ x : Word) = ofNibbles a b (x.extractLsb' 4 4) (x.extractLsb' 0 4) := by
  have h : (a ++ b ++ (x.extractLsb' 4 4 ++ x.extractLsb' 0 4 : BitVec 8) : Word) =
      ofNibbles a b (x.extractLsb' 4 4) (x.extractLsb' 0 4) := by
    apply BitVec.eq_of_getLsbD_eq
    intro i hi
    rw [getLsbD_ofNibbles]
    change BitVec.getLsbD (w := 4 + 4 + 8) _ i = _
    rw [BitVec.getLsbD_append, BitVec.getLsbD_append, getLsbD_byte]
    split_ifs <;> first | rfl | omega
  rwa [← byte_eq_append] at h

/-- A word with an 8-bit field in bits 11 to 4. -/
theorem byte_append (a d : BitVec 4) (x : BitVec 8) :
    (a ++ x ++ d : Word) = ofNibbles a (x.extractLsb' 4 4) (x.extractLsb' 0 4) d := by
  have h : (a ++ (x.extractLsb' 4 4 ++ x.extractLsb' 0 4 : BitVec 8) ++ d : Word) =
      ofNibbles a (x.extractLsb' 4 4) (x.extractLsb' 0 4) d := by
    apply BitVec.eq_of_getLsbD_eq
    intro i hi
    rw [getLsbD_ofNibbles]
    change BitVec.getLsbD (w := 4 + 8 + 4) _ i = _
    rw [BitVec.getLsbD_append, BitVec.getLsbD_append, getLsbD_byte]
    split_ifs <;> first | rfl | omega
  rwa [← byte_eq_append] at h

/-! ## From yielded values to an instruction, under any table -/

/-- A value is a register operand exactly when it is that register's index (R53). -/
theorem asReg_eq_some {v : Int} {r : Reg} : asReg v = some r ↔ (r.toNat : Int) = v := by
  refine ⟨fun h => ?_, fun h => h ▸ asReg_nibble r⟩
  unfold asReg at h
  split at h
  · cases h
    rw [BitVec.toNat_ofInt]; omega
  · cases h

/-- Each operand shape builds an instruction exactly when the first values name its operands. -/
theorem ofReg_eq_some {k : Reg → Instr} {ops : List Int} {i : Instr} :
    ofReg k ops = some i ↔ ∃ r : Reg, i = k r ∧ [(r.toNat : Int)] <+: ops := by
  rcases ops with _ | ⟨a, l⟩ <;> simp [ofReg, asReg_eq_some]
  grind

theorem ofNum_eq_some {k : Int → Instr} {ops : List Int} {i : Instr} :
    ofNum k ops = some i ↔ ∃ n : Int, i = k n ∧ [n] <+: ops := by
  rcases ops with _ | ⟨a, l⟩ <;> simp [ofNum, eq_comm]

theorem ofRegNum_eq_some {k : Reg → Int → Instr} {ops : List Int} {i : Instr} :
    ofRegNum k ops = some i ↔ ∃ (r : Reg) (n : Int), i = k r n ∧ [(r.toNat : Int), n] <+: ops := by
  rcases ops with _ | ⟨a, _ | ⟨b, l⟩⟩ <;> simp [ofRegNum, asReg_eq_some]
  grind

theorem ofRegReg_eq_some {k : Reg → Reg → Instr} {ops : List Int} {i : Instr} :
    ofRegReg k ops = some i ↔
      ∃ r q : Reg, i = k r q ∧ [(r.toNat : Int), (q.toNat : Int)] <+: ops := by
  rcases ops with _ | ⟨a, _ | ⟨b, l⟩⟩ <;>
    simp [ofRegReg, asReg_eq_some, Option.bind_eq_some_iff, Option.map_eq_some_iff]
  grind

theorem ofRegRegReg_eq_some {k : Reg → Reg → Reg → Instr} {ops : List Int} {i : Instr} :
    ofRegRegReg k ops = some i ↔ ∃ r q p : Reg, i = k r q p ∧
      [(r.toNat : Int), (q.toNat : Int), (p.toNat : Int)] <+: ops := by
  rcases ops with _ | ⟨a, _ | ⟨b, _ | ⟨c, l⟩⟩⟩ <;>
    simp [ofRegRegReg, asReg_eq_some, Option.bind_eq_some_iff, Option.map_eq_some_iff]
  grind

/-- What `assemble` can answer: the instruction of the mnemonic whose operands are the first values
yielded (R51, D22; log 20). `data` aside, whose operand is the whole word. -/
theorem assemble_eq_some (w : Word) (m : Mnemonic) (hm : m ≠ .data) (ops : List Int) (i : Instr) :
    assemble w m ops = some i ↔ i.mnemonic = m ∧ i.operands <+: ops := by
  constructor
  · intro h
    cases m <;> simp only [assemble, ofReg_eq_some, ofNum_eq_some, ofRegNum_eq_some,
      ofRegReg_eq_some, ofRegRegReg_eq_some] at h
    case data => exact absurd rfl hm
    case halt => cases h; exact ⟨rfl, List.nil_prefix⟩
    case nop => cases h; exact ⟨rfl, List.nil_prefix⟩
    all_goals
      first
      | (obtain ⟨_, rfl, h⟩ := h; exact ⟨rfl, h⟩)
      | (obtain ⟨_, _, rfl, h⟩ := h; exact ⟨rfl, h⟩)
      | (obtain ⟨_, _, _, rfl, h⟩ := h; exact ⟨rfl, h⟩)
  · rintro ⟨rfl, h⟩
    cases i <;> simp only [Instr.mnemonic, assemble, ofReg_eq_some, ofNum_eq_some, ofRegNum_eq_some,
      ofRegReg_eq_some, ofRegRegReg_eq_some]
    case data => exact absurd rfl hm
    all_goals first | exact ⟨_, rfl, h⟩ | exact ⟨_, _, rfl, h⟩ | exact ⟨_, _, _, rfl, h⟩

end Sys2Proof.Laws
end

