-- ==== Sys2Proof/Laws/Memory.lean ====
section
/-! SUPPORT. What one read sees of each memory operation, and that every memory operation keeps the canonical form (spec/20_memory.md R32, R33). -/

namespace Sys2Proof.Laws

open Sys2Proof.Machine

/-! ## Reads -/

theorem readByte_erase (m : Memory) (a b : Nat) :
    Memory.readByte (Memory.erase m a) b = if b = a then Memory.unlisted else Memory.readByte m b := by
  induction m with
  | nil => simp [Memory.erase, Memory.readByte]
  | cons c m ih =>
    obtain ⟨d, w⟩ := c
    simp only [Memory.erase] at ih
    by_cases hd : d = a
    · subst hd
      simp only [Memory.erase, List.filter_cons, bne_self_eq_false, Bool.false_eq_true, if_false, ih,
        Memory.readByte]
      split
      · rfl
      · next h => rw [if_neg (fun e => h e.symm)]
    · have : (d != a) = true := by simpa using hd
      simp only [Memory.erase, List.filter_cons, this, if_true, Memory.readByte, ih]
      by_cases hb : d = b
      · subst hb; simp [hd]
      · simp [hb]

theorem readByte_insert (m : Memory) (a b : Nat) (v : Byte) (h : ∀ c ∈ m, c.1 ≠ a) :
    Memory.readByte (Memory.insert m a v) b = if b = a then v else Memory.readByte m b := by
  induction m with
  | nil => simp [Memory.insert, Memory.readByte, eq_comm]
  | cons c m ih =>
    obtain ⟨d, w⟩ := c
    have hd : d ≠ a := h (d, w) (by simp)
    have ih := ih fun c hc => h c (by simp [hc])
    simp only [Memory.insert]
    split
    · simp [Memory.readByte, eq_comm]
    · simp only [Memory.readByte, ih]
      by_cases hb : d = b
      · subst hb; simp [hd]
      · simp [hb]

theorem ne_of_mem_erase {m : Memory} {a : Nat} : ∀ c ∈ Memory.erase m a, c.1 ≠ a := by
  intro c hc
  simpa using (List.mem_filter.mp hc).2

/-- A read after a byte write: the value written there, the old value elsewhere. -/
theorem readByte_writeByte (m : Memory) (a b : Nat) (v : Byte) :
    Memory.readByte (Memory.writeByte m a v) b = if b = a then v else Memory.readByte m b := by
  unfold Memory.writeByte
  split
  · next h => rw [readByte_erase, h]
  · rw [readByte_insert _ _ _ _ ne_of_mem_erase, readByte_erase]
    split <;> rfl

theorem readByte_writeWord (m : Memory) (a b : Nat) (w : Word) :
    Memory.readByte (Memory.writeWord m a w) b =
      if b = 2 * a + 1 then w.extractLsb' 0 8
      else if b = 2 * a then w.extractLsb' 8 8 else Memory.readByte m b := by
  simp only [Memory.writeWord, readByte_writeByte]

theorem extract_append_extract (w : Word) :
    (w.extractLsb' 8 8 ++ w.extractLsb' 0 8 : Word) = w := by
  apply BitVec.eq_of_getLsbD_eq
  intro i hi
  rw [BitVec.getLsbD_append, BitVec.getLsbD_extractLsb', BitVec.getLsbD_extractLsb']
  by_cases h : i < 8
  · simp [h]
  · have : i - 8 < 8 := by omega
    have e : 8 + (i - 8) = i := by omega
    simp [h, this, e]

/-- R33: a read after a word write: the word written there, the old word elsewhere. -/
@[simp] theorem readWord_writeWord (m : Memory) (a b : Nat) (w : Word) :
    Memory.readWord (Memory.writeWord m a w) b = if b = a then w else Memory.readWord m b := by
  by_cases h : b = a
  · subst h
    simp only [Memory.readWord, readByte_writeWord, if_true,
      show ¬ (2 * b = 2 * b + 1) by omega, if_false]
    exact extract_append_extract w
  · simp only [Memory.readWord, readByte_writeWord, if_neg h,
      show ¬ (2 * b = 2 * a + 1) by omega, show ¬ (2 * b = 2 * a) by omega,
      show ¬ (2 * b + 1 = 2 * a + 1) by omega, show ¬ (2 * b + 1 = 2 * a) by omega, if_false]

/-- A word write leaves every cell outside the word alone. -/
theorem readByte_writeWord_of_ne (m : Memory) (a b : Nat) (w : Word)
    (h : b ≠ 2 * a) (h' : b ≠ 2 * a + 1) :
    Memory.readByte (Memory.writeWord m a w) b = Memory.readByte m b := by
  rw [readByte_writeWord, if_neg h', if_neg h]

/-! ## The canonical form -/

theorem wf_nil : Memory.wf [] := by simp [Memory.wf]

theorem wf_erase {m : Memory} (h : m.wf) (a : Nat) : Memory.wf (Memory.erase m a) :=
  ⟨h.1.filter _, fun c hc => h.2 c (List.mem_filter.mp hc).1⟩

theorem mem_insert {m : Memory} {a : Nat} {v : Byte} {c : Host.Cell}
    (h : c ∈ Memory.insert m a v) : c = (a, v) ∨ c ∈ m := by
  induction m with
  | nil => simpa [Memory.insert] using h
  | cons d m ih =>
    simp only [Memory.insert] at h
    split at h
    · simpa using h
    · rcases List.mem_cons.mp h with h | h
      · exact .inr (by simp [h])
      · exact (ih h).imp id fun h => by simp [h]

theorem wf_insert {m : Memory} (h : m.wf) {a : Nat} {v : Byte} (hm : ∀ c ∈ m, c.1 ≠ a)
    (hv : v ≠ Memory.unlisted) (ha : a < 2 * Config.memWords) : Memory.wf (Memory.insert m a v) := by
  refine ⟨?_, fun c hc => ?_⟩
  · have hp := h.1
    clear h
    induction m with
    | nil => simp [Memory.insert]
    | cons d m ih =>
      have hne := hm d (by simp)
      have ih := ih (fun c hc => hm c (by simp [hc])) hp.tail
      simp only [Memory.insert]
      split
      · next hlt =>
        refine List.pairwise_cons.mpr ⟨fun c hc => ?_, hp⟩
        rcases List.mem_cons.mp hc with rfl | hc
        · exact hlt
        · exact Nat.lt_trans hlt ((List.pairwise_cons.mp hp).1 c hc)
      · next hlt =>
        refine List.pairwise_cons.mpr ⟨fun c hc => ?_, ih⟩
        rcases mem_insert hc with rfl | hc
        · change d.1 < a
          have : d.1 ≠ a := hne
          have : ¬ a < d.1 := hlt
          omega
        · exact (List.pairwise_cons.mp hp).1 c hc
  · rcases mem_insert hc with rfl | hc
    · exact ⟨hv, ha⟩
    · exact h.2 c hc

theorem wf_writeByte {m : Memory} (h : m.wf) {a : Nat} (ha : a < 2 * Config.memWords) (v : Byte) :
    Memory.wf (Memory.writeByte m a v) := by
  unfold Memory.writeByte
  split
  · exact wf_erase h a
  · next hv => exact wf_insert (wf_erase h a) ne_of_mem_erase hv ha

/-- A word write within the 256 words keeps the canonical form. -/
theorem wf_writeWord {m : Memory} (h : m.wf) {a : Nat} (ha : a < Config.memWords) (w : Word) :
    Memory.wf (Memory.writeWord m a w) :=
  wf_writeByte (wf_writeByte h (by omega) _) (by unfold Config.memWords at *; omega) _

/-- Nothing is listed at an address a canonical memory's cells all lie above. -/
theorem readByte_of_lt {m : Memory} {a : Nat} (h : ∀ c ∈ m, a < c.1) :
    Memory.readByte m a = Memory.unlisted := by
  induction m with
  | nil => rfl
  | cons c m ih =>
    have hc : a < c.1 := h c (by simp)
    simp only [Memory.readByte, if_neg (show ¬ c.1 = a by omega)]
    exact ih fun d hd => h d (by simp [hd])

end Sys2Proof.Laws
end

