-- ==== Sys2Proof/Laws/State.lean ====
section
/-! SUPPORT. One lemma per field per state update, so that no later proof unfolds a record update. -/

namespace Sys2Proof.Laws

open Sys2Proof.Machine

/-! ## advance -/

@[simp] theorem advance_regs (s : State) : (advance s).regs = s.regs := rfl
@[simp] theorem advance_pc (s : State) : (advance s).pc = s.pc + 1 := rfl
@[simp] theorem advance_run (s : State) : (advance s).run = s.run := rfl
@[simp] theorem advance_faultCause (s : State) : (advance s).faultCause = s.faultCause := rfl
@[simp] theorem advance_faultInfo (s : State) : (advance s).faultInfo = s.faultInfo := rfl
@[simp] theorem advance_mem (s : State) : (advance s).mem = s.mem := rfl
@[simp] theorem advance_input (s : State) : (advance s).input = s.input := rfl
@[simp] theorem advance_inPos (s : State) : (advance s).inPos = s.inPos := rfl
@[simp] theorem advance_out (s : State) : (advance s).out = s.out := rfl
@[simp] theorem advance_dump (s : State) : (advance s).dump = s.dump := rfl

/-! ## jumpTo -/

@[simp] theorem jumpTo_regs (s : State) (t : Int) : (jumpTo s t).regs = s.regs := rfl
@[simp] theorem jumpTo_pc (s : State) (t : Int) : (jumpTo s t).pc = t := rfl
@[simp] theorem jumpTo_run (s : State) (t : Int) : (jumpTo s t).run = s.run := rfl
@[simp] theorem jumpTo_faultCause (s : State) (t : Int) : (jumpTo s t).faultCause = s.faultCause := rfl
@[simp] theorem jumpTo_faultInfo (s : State) (t : Int) : (jumpTo s t).faultInfo = s.faultInfo := rfl
@[simp] theorem jumpTo_mem (s : State) (t : Int) : (jumpTo s t).mem = s.mem := rfl
@[simp] theorem jumpTo_input (s : State) (t : Int) : (jumpTo s t).input = s.input := rfl
@[simp] theorem jumpTo_inPos (s : State) (t : Int) : (jumpTo s t).inPos = s.inPos := rfl
@[simp] theorem jumpTo_out (s : State) (t : Int) : (jumpTo s t).out = s.out := rfl
@[simp] theorem jumpTo_dump (s : State) (t : Int) : (jumpTo s t).dump = s.dump := rfl

/-! ## takeToken -/

@[simp] theorem takeToken_regs (s : State) : (takeToken s).regs = s.regs := rfl
@[simp] theorem takeToken_pc (s : State) : (takeToken s).pc = s.pc := rfl
@[simp] theorem takeToken_run (s : State) : (takeToken s).run = s.run := rfl
@[simp] theorem takeToken_faultCause (s : State) : (takeToken s).faultCause = s.faultCause := rfl
@[simp] theorem takeToken_faultInfo (s : State) : (takeToken s).faultInfo = s.faultInfo := rfl
@[simp] theorem takeToken_mem (s : State) : (takeToken s).mem = s.mem := rfl
@[simp] theorem takeToken_input (s : State) : (takeToken s).input = s.input := rfl
@[simp] theorem takeToken_inPos (s : State) : (takeToken s).inPos = s.inPos + 1 := rfl
@[simp] theorem takeToken_out (s : State) : (takeToken s).out = s.out := rfl
@[simp] theorem takeToken_dump (s : State) : (takeToken s).dump = s.dump := rfl

/-! ## emit -/

@[simp] theorem emit_regs (s : State) (v : Int) : (emit s v).regs = s.regs := rfl
@[simp] theorem emit_pc (s : State) (v : Int) : (emit s v).pc = s.pc := rfl
@[simp] theorem emit_run (s : State) (v : Int) : (emit s v).run = s.run := rfl
@[simp] theorem emit_faultCause (s : State) (v : Int) : (emit s v).faultCause = s.faultCause := rfl
@[simp] theorem emit_faultInfo (s : State) (v : Int) : (emit s v).faultInfo = s.faultInfo := rfl
@[simp] theorem emit_mem (s : State) (v : Int) : (emit s v).mem = s.mem := rfl
@[simp] theorem emit_input (s : State) (v : Int) : (emit s v).input = s.input := rfl
@[simp] theorem emit_inPos (s : State) (v : Int) : (emit s v).inPos = s.inPos := rfl
@[simp] theorem emit_out (s : State) (v : Int) : (emit s v).out = s.out ++ [v] := rfl
@[simp] theorem emit_dump (s : State) (v : Int) : (emit s v).dump = s.dump := rfl

/-! ## supply -/

@[simp] theorem supply_regs (s : State) (ts : List Token) : (s.supply ts).regs = s.regs := rfl
@[simp] theorem supply_pc (s : State) (ts : List Token) : (s.supply ts).pc = s.pc := rfl
@[simp] theorem supply_run (s : State) (ts : List Token) : (s.supply ts).run = s.run := rfl
@[simp] theorem supply_faultCause (s : State) (ts : List Token) : (s.supply ts).faultCause = s.faultCause := rfl
@[simp] theorem supply_faultInfo (s : State) (ts : List Token) : (s.supply ts).faultInfo = s.faultInfo := rfl
@[simp] theorem supply_mem (s : State) (ts : List Token) : (s.supply ts).mem = s.mem := rfl
@[simp] theorem supply_input (s : State) (ts : List Token) : (s.supply ts).input = s.input ++ ts := rfl
@[simp] theorem supply_inPos (s : State) (ts : List Token) : (s.supply ts).inPos = s.inPos := rfl
@[simp] theorem supply_out (s : State) (ts : List Token) : (s.supply ts).out = s.out := rfl
@[simp] theorem supply_dump (s : State) (ts : List Token) : (s.supply ts).dump = s.dump := rfl

/-! ## haltRun -/

@[simp] theorem haltRun_regs (s : State) : (haltRun s).regs = s.regs := rfl
@[simp] theorem haltRun_pc (s : State) : (haltRun s).pc = s.pc := rfl
@[simp] theorem haltRun_run (s : State) : (haltRun s).run = .halted := rfl
@[simp] theorem haltRun_faultCause (s : State) : (haltRun s).faultCause = s.faultCause := rfl
@[simp] theorem haltRun_faultInfo (s : State) : (haltRun s).faultInfo = s.faultInfo := rfl
@[simp] theorem haltRun_mem (s : State) : (haltRun s).mem = s.mem := rfl
@[simp] theorem haltRun_input (s : State) : (haltRun s).input = s.input := rfl
@[simp] theorem haltRun_inPos (s : State) : (haltRun s).inPos = s.inPos := rfl
@[simp] theorem haltRun_out (s : State) : (haltRun s).out = s.out := rfl
@[simp] theorem haltRun_dump (s : State) : (haltRun s).dump = s.dump := rfl

/-! ## takeFault -/

@[simp] theorem takeFault_regs (f : FaultClass) (s : State) : (takeFault f s).regs = s.regs := rfl
@[simp] theorem takeFault_pc (f : FaultClass) (s : State) : (takeFault f s).pc = s.pc := rfl
@[simp] theorem takeFault_run (f : FaultClass) (s : State) : (takeFault f s).run = .faulted := rfl
@[simp] theorem takeFault_faultCause (f : FaultClass) (s : State) : (takeFault f s).faultCause = f.code := rfl
@[simp] theorem takeFault_faultInfo (f : FaultClass) (s : State) : (takeFault f s).faultInfo = f.info := rfl
@[simp] theorem takeFault_mem (f : FaultClass) (s : State) : (takeFault f s).mem = s.mem := rfl
@[simp] theorem takeFault_input (f : FaultClass) (s : State) : (takeFault f s).input = s.input := rfl
@[simp] theorem takeFault_inPos (f : FaultClass) (s : State) : (takeFault f s).inPos = s.inPos := rfl
@[simp] theorem takeFault_out (f : FaultClass) (s : State) : (takeFault f s).out = s.out := rfl
@[simp] theorem takeFault_dump (f : FaultClass) (s : State) : (takeFault f s).dump = some (dumpRecord s) := rfl

/-! ## placeWord -/

@[simp] theorem placeWord_regs (s : State) (a : Nat) (w : Word) : (placeWord s a w).regs = s.regs := rfl
@[simp] theorem placeWord_pc (s : State) (a : Nat) (w : Word) : (placeWord s a w).pc = s.pc := rfl
@[simp] theorem placeWord_run (s : State) (a : Nat) (w : Word) : (placeWord s a w).run = s.run := rfl
@[simp] theorem placeWord_faultCause (s : State) (a : Nat) (w : Word) : (placeWord s a w).faultCause = s.faultCause := rfl
@[simp] theorem placeWord_faultInfo (s : State) (a : Nat) (w : Word) : (placeWord s a w).faultInfo = s.faultInfo := rfl
@[simp] theorem placeWord_mem (s : State) (a : Nat) (w : Word) : (placeWord s a w).mem = s.mem.writeWord a w := rfl
@[simp] theorem placeWord_input (s : State) (a : Nat) (w : Word) : (placeWord s a w).input = s.input := rfl
@[simp] theorem placeWord_inPos (s : State) (a : Nat) (w : Word) : (placeWord s a w).inPos = s.inPos := rfl
@[simp] theorem placeWord_out (s : State) (a : Nat) (w : Word) : (placeWord s a w).out = s.out := rfl
@[simp] theorem placeWord_dump (s : State) (a : Nat) (w : Word) : (placeWord s a w).dump = s.dump := rfl

/-! ## setReg: the registers alone -/

@[simp] theorem setReg_pc (s : State) (i : Reg) (v : Int) : (setReg s i v).pc = s.pc := by
  unfold setReg; split <;> rfl
@[simp] theorem setReg_run (s : State) (i : Reg) (v : Int) : (setReg s i v).run = s.run := by
  unfold setReg; split <;> rfl
@[simp] theorem setReg_faultCause (s : State) (i : Reg) (v : Int) : (setReg s i v).faultCause = s.faultCause := by
  unfold setReg; split <;> rfl
@[simp] theorem setReg_faultInfo (s : State) (i : Reg) (v : Int) : (setReg s i v).faultInfo = s.faultInfo := by
  unfold setReg; split <;> rfl
@[simp] theorem setReg_mem (s : State) (i : Reg) (v : Int) : (setReg s i v).mem = s.mem := by
  unfold setReg; split <;> rfl
@[simp] theorem setReg_input (s : State) (i : Reg) (v : Int) : (setReg s i v).input = s.input := by
  unfold setReg; split <;> rfl
@[simp] theorem setReg_inPos (s : State) (i : Reg) (v : Int) : (setReg s i v).inPos = s.inPos := by
  unfold setReg; split <;> rfl
@[simp] theorem setReg_out (s : State) (i : Reg) (v : Int) : (setReg s i v).out = s.out := by
  unfold setReg; split <;> rfl
@[simp] theorem setReg_dump (s : State) (i : Reg) (v : Int) : (setReg s i v).dump = s.dump := by
  unfold setReg; split <;> rfl

/-! ## Register reads through updates of other fields -/

@[simp] theorem getReg_advance (s : State) (q : Reg) : getReg (advance s) q = getReg s q := rfl
@[simp] theorem getReg_jumpTo (s : State) (t : Int) (q : Reg) : getReg (jumpTo s t) q = getReg s q := rfl
@[simp] theorem getReg_takeToken (s : State) (q : Reg) : getReg (takeToken s) q = getReg s q := rfl
@[simp] theorem getReg_emit (s : State) (v : Int) (q : Reg) : getReg (emit s v) q = getReg s q := rfl
@[simp] theorem getReg_supply (s : State) (ts : List Token) (q : Reg) : getReg (s.supply ts) q = getReg s q := rfl
@[simp] theorem getReg_haltRun (s : State) (q : Reg) : getReg (haltRun s) q = getReg s q := rfl
@[simp] theorem getReg_takeFault (f : FaultClass) (s : State) (q : Reg) : getReg (takeFault f s) q = getReg s q := rfl
@[simp] theorem getReg_placeWord (s : State) (a : Nat) (w : Word) (q : Reg) : getReg (placeWord s a w) q = getReg s q := rfl

end Sys2Proof.Laws
end

