-- ==== Sys2Proof/Laws/Word.lean ====
section
/-! SUPPORT. The two wraps, sign extension and the 16-bit cell agree (spec/00_scope.md R7). -/

namespace Sys2Proof.Laws

open Sys2Proof.Machine

theorem wrap16_range (v : Int) : -32768 ≤ wrap16 v ∧ wrap16 v ≤ 32767 := by
  unfold wrap16; omega

theorem uwrap16_range (v : Int) : 0 ≤ uwrap16 v ∧ uwrap16 v ≤ 65535 := by
  unfold uwrap16; omega

theorem wrap16_of_range {v : Int} (h : -32768 ≤ v) (h' : v ≤ 32767) : wrap16 v = v := by
  unfold wrap16; omega

theorem uwrap16_of_range {v : Int} (h : 0 ≤ v) (h' : v ≤ 65535) : uwrap16 v = v := by
  unfold uwrap16; omega

@[simp] theorem wrap16_wrap16 (v : Int) : wrap16 (wrap16 v) = wrap16 v :=
  wrap16_of_range (wrap16_range v).1 (wrap16_range v).2

@[simp] theorem wrap16_uwrap16 (v : Int) : wrap16 (uwrap16 v) = wrap16 v := by
  unfold wrap16 uwrap16; omega

@[simp] theorem uwrap16_wrap16 (v : Int) : uwrap16 (wrap16 v) = uwrap16 v := by
  unfold wrap16 uwrap16; omega

/-- The cell's signed reading is the wrap of the integer put into it. -/
theorem toInt_ofInt16 (v : Int) : (BitVec.ofInt 16 v).toInt = wrap16 v := by
  rw [BitVec.toInt_ofInt, Int.bmod_def]; unfold wrap16; norm_num; omega

/-- The cell's unsigned reading is the unsigned wrap of the integer put into it. -/
theorem toNat_ofInt16 (v : Int) : ((BitVec.ofInt 16 v).toNat : Int) = uwrap16 v := by
  rw [BitVec.toNat_ofInt]; unfold uwrap16; omega

/-- `wrap16` of a word read as unsigned is its signed reading. -/
theorem wrap16_toNat (w : Word) : wrap16 w.toNat = w.toInt := by
  have h := toInt_ofInt16 w.toNat
  rwa [BitVec.ofInt_natCast, BitVec.ofNat_toNat, BitVec.setWidth_eq, eq_comm] at h

theorem toInt_range (w : Word) : -32768 ≤ w.toInt ∧ w.toInt ≤ 32767 := by
  rw [← wrap16_toNat]; exact wrap16_range _

/-! ## Values of 8-bit fields -/

/-- R55: `sext_8` of a slice is its two's-complement reading. -/
theorem sext_byte (x : Byte) : sext 8 x.toNat = x.toInt := by
  have := x.isLt
  rw [BitVec.toInt_eq_toNat_cond]; unfold sext; norm_num; split <;> split <;> omega

/-- R56: `sext_16` of a word is its two's-complement reading. -/
theorem sext_word (w : Word) : sext 16 w.toNat = w.toInt := by
  have := w.isLt
  rw [BitVec.toInt_eq_toNat_cond]; unfold sext; norm_num; split <;> split <;> omega

/-- R54: what an 8-bit unsigned field yields fits an address. -/
@[simp] theorem isAddr_toNat (x : Byte) : isAddr (x.toNat : Int) = true := by
  have := x.isLt
  exact decide_eq_true ⟨by omega, by omega⟩

/-- R55: what an 8-bit signed field yields fits a number. -/
@[simp] theorem isImm_toInt (x : Byte) : isImm x.toInt = true := by
  have h := x.le_toInt
  have h' := x.toInt_lt
  exact decide_eq_true ⟨by omega, by omega⟩

@[simp] theorem ofInt_byte_toNat (x : Byte) : BitVec.ofInt 8 (x.toNat : Int) = x := by simp

@[simp] theorem ofInt_byte_toInt (x : Byte) : BitVec.ofInt 8 x.toInt = x := by simp

/-- R68: an address put into its field is read back. -/
theorem toNat_ofInt_byte {a : Int} (h : isAddr a = true) : ((BitVec.ofInt 8 a).toNat : Int) = a := by
  have := of_decide_eq_true h
  rw [BitVec.toNat_ofInt]; omega

/-- R68: a number put into its field is read back. -/
theorem toInt_ofInt_byte {n : Int} (h : isImm n = true) : (BitVec.ofInt 8 n).toInt = n := by
  have := of_decide_eq_true h
  rw [BitVec.toInt_ofInt, Int.bmod_def]; split <;> omega

end Sys2Proof.Laws
end

