-- ==== Sys2Proof/Laws/Ops.lean ====
section
/-! SUPPORT. For each shared operation, once, everything it can do (spec/10_state.md R11, R12; spec/20_memory.md R32, R33; spec/60_exceptions.md R136). -/

namespace Sys2Proof.Laws

open Sys2Proof.Machine

/-! ## Registers -/

@[simp] theorem getReg_zero (s : State) : getReg s 0#4 = 0 := by simp [getReg]

/-- R12 for r0: the write is swallowed. -/
@[simp] theorem setReg_zero (s : State) (v : Int) : setReg s 0#4 v = s := by simp [setReg]

theorem getReg_range (s : State) (q : Reg) : -32768 ≤ getReg s q ∧ getReg s q ≤ 32767 := by
  unfold getReg
  split
  · omega
  · exact toInt_range _

@[simp] theorem wrap16_getReg (s : State) (q : Reg) : wrap16 (getReg s q) = getReg s q :=
  wrap16_of_range (getReg_range s q).1 (getReg_range s q).2

/-- R11, R12: what each register reads after a register write. -/
theorem getReg_setReg (s : State) (i q : Reg) (v : Int) :
    getReg (setReg s i v) q = if q = i ∧ q ≠ 0 then wrap16 v else getReg s q := by
  by_cases hi : i = 0
  · subst hi
    rw [show setReg s 0 v = s from setReg_zero s v, if_neg (fun h => h.2 h.1)]
  by_cases hq : q = 0
  · subst hq; simp
  have hi' : i.toNat ≠ 0 := fun h => hi (BitVec.eq_of_toNat_eq (by simpa using h))
  have hq' : q.toNat ≠ 0 := fun h => hq (BitVec.eq_of_toNat_eq (by simpa using h))
  simp only [getReg, setReg, if_neg hi, ne_eq, hq, not_false_eq_true, and_true,
    Vector.getElem_set]
  by_cases h : q = i
  · subst h
    simp only [↓reduceIte, toInt_ofInt16, wrap16_wrap16]
  · have : i.toNat - 1 ≠ q.toNat - 1 := fun e =>
      h (BitVec.eq_of_toNat_eq (by omega))
    simp [h, this]

/-- Two states with the same r1 to r15 read the same registers. -/
theorem getReg_congr {s t : State} (h : t.regs = s.regs) (q : Reg) : getReg t q = getReg s q := by
  unfold getReg; split
  · rfl
  · simp only [h]

/-! ## Memory primitives -/

theorem memRead_inRange {s : State} {a : Int} (h : inRange a) :
    memRead s a = .ok (s.mem.readWord a.toNat) := if_pos h

theorem memRead_outOfRange {s : State} {a : Int} (h : ¬ inRange a) :
    memRead s a = .error (.memoryBoundsFault a) := if_neg h

/-- R32 read backwards: the only way a read succeeds, the only fault it raises. -/
theorem memRead_cases (s : State) (a : Int) :
    (inRange a ∧ memRead s a = .ok (s.mem.readWord a.toNat)) ∨
    (¬ inRange a ∧ memRead s a = .error (.memoryBoundsFault a)) := by
  by_cases h : inRange a
  · exact .inl ⟨h, memRead_inRange h⟩
  · exact .inr ⟨h, memRead_outOfRange h⟩

theorem memWrite_inRange {s : State} {a v : Int} (h : inRange a) :
    memWrite s a v = .ok (placeWord s a.toNat (BitVec.ofInt 16 v)) := if_pos h

theorem memWrite_outOfRange {s : State} {a v : Int} (h : ¬ inRange a) :
    memWrite s a v = .error (.memoryBoundsFault a) := if_neg h

/-- R33 read backwards. -/
theorem memWrite_cases (s : State) (a v : Int) :
    (inRange a ∧ memWrite s a v = .ok (placeWord s a.toNat (BitVec.ofInt 16 v))) ∨
    (¬ inRange a ∧ memWrite s a v = .error (.memoryBoundsFault a)) := by
  by_cases h : inRange a
  · exact .inl ⟨h, memWrite_inRange h⟩
  · exact .inr ⟨h, memWrite_outOfRange h⟩

@[simp] theorem directAddr_eq (addr : Int) : directAddr addr = addr := rfl

@[simp] theorem immValue_eq (n : Int) : immValue n = n := rfl

theorem readWord_placeWord (s : State) (a b : Nat) (w : Word) :
    (placeWord s a w).mem.readWord b = if b = a then w else s.mem.readWord b :=
  readWord_writeWord _ _ _ _

/-- The word put into memory for a register, read as unsigned. -/
theorem toNat_storedValue (s : State) (r : Reg) :
    ((BitVec.ofInt 16 (storedValue s r)).toNat : Int) = uwrap16 (getReg s r) := by
  rw [toNat_ofInt16, storedValue]; exact uwrap16_of_range (uwrap16_range _).1 (uwrap16_range _).2

/-- R12: a loaded word enters a register with its signed reading. -/
theorem wrap16_loadedValue (w : Word) : wrap16 (loadedValue w) = w.toInt := wrap16_toNat w

/-! ## Attempt and faults -/

@[simp] theorem attempt_ok {α : Type} (s : State) (a : α) (k : α → State) :
    attempt s (.ok a) k = .next (k a) := rfl

@[simp] theorem attempt_error {α : Type} (s : State) (f : FaultClass) (k : α → State) :
    attempt s (.error f) k = .next (takeFault f s) := rfl

/-- Everything an instruction with a memory read can do. -/
theorem attempt_memRead (s : State) (a : Int) (k : Word → State) :
    (inRange a ∧ attempt s (memRead s a) k = .next (k (s.mem.readWord a.toNat))) ∨
    (¬ inRange a ∧ attempt s (memRead s a) k = .next (takeFault (.memoryBoundsFault a) s)) := by
  rcases memRead_cases s a with ⟨h, e⟩ | ⟨h, e⟩
  · exact .inl ⟨h, by rw [e, attempt_ok]⟩
  · exact .inr ⟨h, by rw [e, attempt_error]⟩

/-- Everything an instruction with a memory write can do. -/
theorem attempt_memWrite (s : State) (a v : Int) (k : State → State) :
    (inRange a ∧ attempt s (memWrite s a v) k = .next (k (placeWord s a.toNat (BitVec.ofInt 16 v)))) ∨
    (¬ inRange a ∧ attempt s (memWrite s a v) k = .next (takeFault (.memoryBoundsFault a) s)) := by
  rcases memWrite_cases s a v with ⟨h, e⟩ | ⟨h, e⟩
  · exact .inl ⟨h, by rw [e, attempt_ok]⟩
  · exact .inr ⟨h, by rw [e, attempt_error]⟩

/-- The dump record sees the registers, the pc and the memory alone. -/
theorem dumpRecord_congr {s t : State} (hr : t.regs = s.regs) (hp : t.pc = s.pc)
    (hm : t.mem = s.mem) : dumpRecord t = dumpRecord s := by
  simp only [dumpRecord, hp, hm, getReg_congr hr]

@[simp] theorem dumpRecord_takeToken (s : State) : dumpRecord (takeToken s) = dumpRecord s := rfl

@[simp] theorem dumpRecord_takeFault (f : FaultClass) (s : State) :
    dumpRecord (takeFault f s) = dumpRecord s := rfl

end Sys2Proof.Laws
end

