-- ==== Sys2Proof/Laws/Exec.lean ====
section
/-! SUPPORT. What one instruction and one step can do, once (spec/60_exceptions.md R136 to R138): later proofs cite these cases instead of unfolding the meanings. -/

namespace Sys2Proof.Laws

open Sys2Proof.Machine

@[simp] theorem writeResult_eq (s : State) (r : Reg) (v : Int) :
    writeResult s r v = advance (setReg s r v) := rfl

/-- Everything `div` and `mod` can do. -/
theorem divideWith_cases (op : Int → Int → Int) (rdest rx ry : Reg) (s : State) :
    (getReg s ry = 0 ∧ divideWith op rdest rx ry s = .next (takeFault .arithmeticFault s)) ∨
    (getReg s ry ≠ 0 ∧ divideWith op rdest rx ry s =
      .next (writeResult s rdest (op (getReg s rx) (getReg s ry)))) := by
  unfold divideWith
  by_cases h : getReg s ry = 0
  · exact .inl ⟨h, if_pos h⟩
  · exact .inr ⟨h, if_neg h⟩

/-- Everything `read` can do (R82). -/
theorem execRead_cases (r : Reg) (s : State) :
    (nextToken s = none ∧ execRead r s = .next s) ∨
    (nextToken s = some .bad ∧ execRead r s = .next (takeFault .inputFault (takeToken s))) ∨
    (∃ v, nextToken s = some (.int v) ∧
      execRead r s = .next (advance (setReg (takeToken s) r v))) := by
  unfold execRead
  rcases h : nextToken s with _ | (v | _)
  · exact .inl ⟨rfl, rfl⟩
  · exact .inr (.inr ⟨v, rfl, rfl⟩)
  · exact .inr (.inl ⟨rfl, rfl⟩)

/-- Everything a conditional jump can do. -/
theorem branchIf_cases (c : Cond) (r : Reg) (addr : Int) (s : State) :
    (c.holds (getReg s r) = true ∧ branchIf c r addr s = .next (jumpTo s addr)) ∨
    (c.holds (getReg s r) = false ∧ branchIf c r addr s = .next (advance s)) := by
  unfold branchIf
  cases h : c.holds (getReg s r) <;> simp

/-- A conditional jump's condition, register and target. -/
def branch : Instr → Option (Cond × Reg × Int)
  | .jeqz r a => some (.eqz, r, a)
  | .jnez r a => some (.nez, r, a)
  | .jgtz r a => some (.gtz, r, a)
  | .jltz r a => some (.ltz, r, a)
  | _ => none

/-- What an instruction can do, by the shape of its effect. A faulting instruction has the fault
taken from the state it began in, but for the input cursor of a `Bad` token. -/
inductive Effect (s : State) : Instr → State → Prop where
  | halt : Effect s .halt (haltRun s)
  | data (w : Word) : Effect s (.data w) (haltRun s)
  | nop : Effect s .nop (advance s)
  | hold (r : Reg) : nextToken s = none → Effect s (.read r) s
  | readBad (r : Reg) : nextToken s = some .bad →
      Effect s (.read r) (takeFault .inputFault (takeToken s))
  | readInt (r : Reg) (v : Int) : nextToken s = some (.int v) →
      Effect s (.read r) (advance (setReg (takeToken s) r v))
  | write (r : Reg) : Effect s (.write r) (advance (emit s (getReg s r)))
  | loadn (r : Reg) (n : Int) : Effect s (.loadn r n) (advance (setReg s r n))
  | load (r : Reg) (addr : Int) : inRange addr →
      Effect s (.load r addr) (advance (setReg s r (loadedValue (s.mem.readWord addr.toNat))))
  | store (r : Reg) (addr : Int) : inRange addr →
      Effect s (.store r addr)
        (advance (placeWord s addr.toNat (BitVec.ofInt 16 (storedValue s r))))
  | loadi (rd ra : Reg) : inRange (getReg s ra) →
      Effect s (.loadi rd ra)
        (advance (setReg s rd (loadedValue (s.mem.readWord (getReg s ra).toNat))))
  | storei (rs ra : Reg) : inRange (getReg s ra) →
      Effect s (.storei rs ra)
        (advance (placeWord s (getReg s ra).toNat (BitVec.ofInt 16 (storedValue s rs))))
  | popr (rd ra : Reg) (t : State) : inRange (getReg s ra) →
      t = setReg s rd (loadedValue (s.mem.readWord (getReg s ra).toNat)) →
      Effect s (.popr rd ra) (advance (setReg t ra (getReg t ra - 1)))
  | pushn (rs ra : Reg) : inRange (getReg s ra) →
      Effect s (.pushn rs ra)
        (advance (setReg
          (placeWord s (getReg s ra).toNat (BitVec.ofInt 16 (storedValue s rs))) ra
          (getReg s ra + 1)))
  | badDirect (i : Instr) (addr : Int) : ¬ inRange addr →
      (∃ r, i = .load r addr ∨ i = .store r addr) →
      Effect s i (takeFault (.memoryBoundsFault addr) s)
  | badAddress (i : Instr) (ra : Reg) : ¬ inRange (getReg s ra) →
      (∃ r, i = .loadi r ra ∨ i = .storei r ra ∨ i = .popr r ra ∨ i = .pushn r ra) →
      Effect s i (takeFault (.memoryBoundsFault (getReg s ra)) s)
  | addn (r : Reg) (n : Int) :
      Effect s (.addn r n) (advance (setReg s r (getReg s r + n)))
  | mov (rd rx : Reg) : Effect s (.mov rd rx) (advance (setReg s rd (getReg s rx)))
  | add (rd rx ry : Reg) :
      Effect s (.add rd rx ry) (advance (setReg s rd (getReg s rx + getReg s ry)))
  | neg (rd rx : Reg) : Effect s (.neg rd rx) (advance (setReg s rd (0 - getReg s rx)))
  | sub (rd rx ry : Reg) :
      Effect s (.sub rd rx ry) (advance (setReg s rd (getReg s rx - getReg s ry)))
  | mul (rd rx ry : Reg) :
      Effect s (.mul rd rx ry) (advance (setReg s rd (getReg s rx * getReg s ry)))
  | div (rd rx ry : Reg) : getReg s ry ≠ 0 →
      Effect s (.div rd rx ry)
        (advance (setReg s rd (fdiv Config.divMode (getReg s rx) (getReg s ry))))
  | mod (rd rx ry : Reg) : getReg s ry ≠ 0 →
      Effect s (.mod rd rx ry)
        (advance (setReg s rd (fmod Config.divMode (getReg s rx) (getReg s ry))))
  | zeroDivisor (i : Instr) (ry : Reg) : getReg s ry = 0 →
      (∃ rd rx, i = .div rd rx ry ∨ i = .mod rd rx ry) →
      Effect s i (takeFault .arithmeticFault s)
  | jumpi (addr : Int) : Effect s (.jumpi addr) (jumpTo s addr)
  | jump (addr : Int) : Effect s (.jump addr) (jumpTo s addr)
  | call (r : Reg) (addr : Int) :
      Effect s (.call r addr) (jumpTo (setReg s r s.pc) addr)
  | taken (i : Instr) (c : Cond) (r : Reg) (addr : Int) : c.holds (getReg s r) = true →
      branch i = some (c, r, addr) → Effect s i (jumpTo s addr)
  | notTaken (i : Instr) (c : Cond) (r : Reg) (addr : Int) : c.holds (getReg s r) = false →
      branch i = some (c, r, addr) → Effect s i (advance s)

theorem branch_effect (c : Cond) (r : Reg) (a : Int) (s : State) (i : Instr)
    (hb : branch i = some (c, r, a)) (hx : exec i s = branchIf c r a s) :
    ∃ t, exec i s = .next t ∧ Effect s i t := by
  rcases branchIf_cases c r a s with ⟨h, e⟩ | ⟨h, e⟩
  · exact ⟨_, hx.trans e, .taken i c r a h hb⟩
  · exact ⟨_, hx.trans e, .notTaken i c r a h hb⟩

/-- Every instruction answers a next state, and this is all it can be. -/
theorem exec_effect (i : Instr) (s : State) : ∃ t, exec i s = .next t ∧ Effect s i t := by
  cases i with
  | halt => exact ⟨_, rfl, .halt⟩
  | read r =>
    rcases execRead_cases r s with ⟨h, e⟩ | ⟨h, e⟩ | ⟨v, h, e⟩
    · exact ⟨_, e, .hold r h⟩
    · exact ⟨_, e, .readBad r h⟩
    · exact ⟨_, e, .readInt r v h⟩
  | write r => exact ⟨_, rfl, .write r⟩
  | jumpi a => exact ⟨_, rfl, .jumpi a⟩
  | loadn r n => exact ⟨_, rfl, .loadn r n⟩
  | load r a =>
    rcases attempt_memRead s a _ with ⟨h, e⟩ | ⟨h, e⟩
    · exact ⟨_, e, .load r a h⟩
    · exact ⟨_, e, .badDirect _ a h ⟨r, .inl rfl⟩⟩
  | store r a =>
    rcases attempt_memWrite s a (storedValue s r) _ with ⟨h, e⟩ | ⟨h, e⟩
    · exact ⟨_, e, .store r a h⟩
    · exact ⟨_, e, .badDirect _ a h ⟨r, .inr rfl⟩⟩
  | loadi rd ra =>
    rcases attempt_memRead s (getReg s ra) _ with ⟨h, e⟩ | ⟨h, e⟩
    · exact ⟨_, e, .loadi rd ra h⟩
    · exact ⟨_, e, .badAddress _ ra h ⟨rd, .inl rfl⟩⟩
  | storei rs ra =>
    rcases attempt_memWrite s (getReg s ra) (storedValue s rs) _ with ⟨h, e⟩ | ⟨h, e⟩
    · exact ⟨_, e, .storei rs ra h⟩
    · exact ⟨_, e, .badAddress _ ra h ⟨rs, .inr (.inl rfl)⟩⟩
  | popr rd ra =>
    rcases attempt_memRead s (getReg s ra) _ with ⟨h, e⟩ | ⟨h, e⟩
    · exact ⟨_, e, .popr rd ra _ h rfl⟩
    · exact ⟨_, e, .badAddress _ ra h ⟨rd, .inr (.inr (.inl rfl))⟩⟩
  | pushn rs ra =>
    rcases attempt_memWrite s (getReg s ra) (storedValue s rs) _ with ⟨h, e⟩ | ⟨h, e⟩
    · exact ⟨_, e, .pushn rs ra h⟩
    · exact ⟨_, e, .badAddress _ ra h ⟨rs, .inr (.inr (.inr rfl))⟩⟩
  | addn r n => exact ⟨_, rfl, .addn r n⟩
  | nop => exact ⟨_, rfl, .nop⟩
  | mov rd rx => exact ⟨_, rfl, .mov rd rx⟩
  | add rd rx ry => exact ⟨_, rfl, .add rd rx ry⟩
  | neg rd rx => exact ⟨_, rfl, .neg rd rx⟩
  | sub rd rx ry => exact ⟨_, rfl, .sub rd rx ry⟩
  | mul rd rx ry => exact ⟨_, rfl, .mul rd rx ry⟩
  | div rd rx ry =>
    rcases divideWith_cases (fdiv Config.divMode) rd rx ry s with ⟨h, e⟩ | ⟨h, e⟩
    · exact ⟨_, e, .zeroDivisor _ ry h ⟨rd, rx, .inl rfl⟩⟩
    · exact ⟨_, e, .div rd rx ry h⟩
  | mod rd rx ry =>
    rcases divideWith_cases (fmod Config.divMode) rd rx ry s with ⟨h, e⟩ | ⟨h, e⟩
    · exact ⟨_, e, .zeroDivisor _ ry h ⟨rd, rx, .inr rfl⟩⟩
    · exact ⟨_, e, .mod rd rx ry h⟩
  | jump a => exact ⟨_, rfl, .jump a⟩
  | call r a => exact ⟨_, rfl, .call r a⟩
  | jeqz r a => exact branch_effect .eqz r a s _ rfl rfl
  | jnez r a => exact branch_effect .nez r a s _ rfl rfl
  | jgtz r a => exact branch_effect .gtz r a s _ rfl rfl
  | jltz r a => exact branch_effect .ltz r a s _ rfl rfl
  | data w => exact ⟨_, rfl, .data w⟩

/-- The same, from an answer. -/
theorem effect_of_exec {i : Instr} {s t : State} (h : exec i s = .next t) : Effect s i t := by
  obtain ⟨t', e, he⟩ := exec_effect i s
  rw [h] at e
  cases e
  exact he

/-- R57: a table is refused exactly when one of its rows has an ill-formed field string. -/
theorem cycle_cases (table : List Row) (s : State) :
    (tableOk table = true ∧ cycle table s = cycleOk table s) ∨
    (tableOk table = false ∧ cycle table s = .refused .illFormedTable) := by
  unfold cycle
  cases h : tableOk table
  · exact .inr ⟨rfl, rfl⟩
  · exact .inl ⟨rfl, rfl⟩

/-- A table is taken when every row's field string is well-formed. -/
theorem tableOk_iff (table : List Row) :
    tableOk table = true ↔ ∀ row ∈ table, fieldsOk row.fields = true := List.all_eq_true

theorem tableOk_encTable : tableOk Config.encTable = true := by decide

/-- The default table is never refused. -/
theorem step_eq_cycleOk (s : State) : step s = cycleOk Config.encTable s := by
  unfold step cycle
  rw [tableOk_encTable, if_pos rfl]

/-- A step outside Running changes nothing (R17). -/
theorem step_stopped {s : State} (h : s.run ≠ .running) : step s = .next s := by
  rw [step_eq_cycleOk]
  unfold cycleOk
  cases hr : s.run <;> simp_all

/-- A running step whose fetched word decodes runs the instruction (R138). -/
theorem step_runs {s : State} {w : Word} {i : Instr} (h : s.run = .running)
    (hf : fetch s = .ok w) (hd : decode w = .instr i) : step s = exec i s := by
  unfold decode at hd
  simp only [step_eq_cycleOk, cycleOk, h, hf, runWord, hd]

/-- A running step whose fetch raises takes that fault. -/
theorem step_fetchFault {s : State} {f : FaultClass} (h : s.run = .running)
    (hf : fetch s = .error f) : step s = .next (takeFault f s) := by
  simp only [step_eq_cycleOk, cycleOk, h, hf]

/-- A run whose first step answers goes on from there. -/
theorem run_next (M : Host.Core) (k : Nat) {s t : M.State} (h : M.step s = .next t) :
    M.run (k + 1) s = M.run k t := by
  simp only [Host.Core.run, h]

theorem fetch_inRange {s : State} (h : inRange s.pc) :
    fetch s = .ok (s.mem.readWord s.pc.toNat) := memRead_inRange h

theorem fetch_outOfRange {s : State} (h : ¬ inRange s.pc) :
    fetch s = .error (.memoryBoundsFault s.pc) := memRead_outOfRange h

end Sys2Proof.Laws
end

