-- ==== Sys2Proof/Laws/PerInstr.lean ====
section
/-! SUPPORT. A fact about every instruction as syntax, one lemma per constructor: the encoding an instruction has fits the row of its own mnemonic (spec/30_encoding.md R60, R68). -/

namespace Sys2Proof.Laws

/-- The row of a mnemonic in the default table matches the encoded word. (Whether an earlier row
claims the word first is another matter: `Instr.wellFormed`.) -/
def EncodeFitsRow.Statement (i : Instr) : Prop :=
  ∃ row ∈ Config.encTable, row.mnemonic = i.mnemonic ∧ row.hits (encode i) = true

theorem hits_fixed {m : Mnemonic} {fs : List FieldCode} (p q r t x y z w a b c d : BitVec 4)
    (h : a &&& x = p ∧ b &&& y = q ∧ c &&& z = r ∧ d &&& w = t) :
    Row.hits ⟨ofNibbles p q r t, ofNibbles x y z w, m, fs⟩ (ofNibbles a b c d) = true := by
  rw [hits_ofNibbles]; exact decide_eq_true h

theorem fits_row {i : Instr} {w : Word} (row : Row) (hm : row ∈ Config.encTable)
    (hi : row.mnemonic = i.mnemonic) (hw : encode i = w) (h : row.hits w = true) :
    EncodeFitsRow.Statement i := ⟨row, hm, hi, hw ▸ h⟩

theorem EncodeFitsRow.halt : EncodeFitsRow.Statement (.halt) := by
  unfold EncodeFitsRow.Statement; decide

theorem EncodeFitsRow.read (r : Reg) : EncodeFitsRow.Statement (.read r) :=
  fits_row ⟨0x0001, 0xF0FF, .read, [.r]⟩ (by decide) rfl rfl (hits_fixed 0 0 0 1 15 0 15 15 0 r 0 1 (by simp [and_full]))

theorem EncodeFitsRow.write (r : Reg) : EncodeFitsRow.Statement (.write r) :=
  fits_row ⟨0x0002, 0xF0FF, .write, [.r]⟩ (by decide) rfl rfl (hits_fixed 0 0 0 2 15 0 15 15 0 r 0 2 (by simp [and_full]))

theorem EncodeFitsRow.jumpi (addr : Int) : EncodeFitsRow.Statement (.jumpi addr) :=
  fits_row ⟨0x0003, 0xF00F, .jumpi, [.u, .z]⟩ (by decide) rfl (byte_append 0 3 addr) (hits_fixed 0 0 0 3 15 0 0 15 _ _ _ _ (by simp [and_full]))

theorem EncodeFitsRow.loadn (r : Reg) (n : Int) : EncodeFitsRow.Statement (.loadn r n) :=
  fits_row ⟨0x1000, 0xF000, .loadn, [.r, .s]⟩ (by decide) rfl (append_byte 1 r n) (hits_fixed 1 0 0 0 15 0 0 0 _ _ _ _ (by simp [and_full]))

theorem EncodeFitsRow.load (r : Reg) (addr : Int) : EncodeFitsRow.Statement (.load r addr) :=
  fits_row ⟨0x2000, 0xF000, .load, [.r, .u]⟩ (by decide) rfl (append_byte 2 r addr) (hits_fixed 2 0 0 0 15 0 0 0 _ _ _ _ (by simp [and_full]))

theorem EncodeFitsRow.store (r : Reg) (addr : Int) : EncodeFitsRow.Statement (.store r addr) :=
  fits_row ⟨0x3000, 0xF000, .store, [.r, .u]⟩ (by decide) rfl (append_byte 3 r addr) (hits_fixed 3 0 0 0 15 0 0 0 _ _ _ _ (by simp [and_full]))

theorem EncodeFitsRow.loadi (rd : Reg) (ra : Reg) : EncodeFitsRow.Statement (.loadi rd ra) :=
  fits_row ⟨0x4000, 0xF00F, .loadi, [.r, .r]⟩ (by decide) rfl rfl (hits_fixed 4 0 0 0 15 0 0 15 4 rd ra 0 (by simp [and_full]))

theorem EncodeFitsRow.storei (rs : Reg) (ra : Reg) : EncodeFitsRow.Statement (.storei rs ra) :=
  fits_row ⟨0x4001, 0xF00F, .storei, [.r, .r]⟩ (by decide) rfl rfl (hits_fixed 4 0 0 1 15 0 0 15 4 rs ra 1 (by simp [and_full]))

theorem EncodeFitsRow.popr (rd : Reg) (ra : Reg) : EncodeFitsRow.Statement (.popr rd ra) :=
  fits_row ⟨0x4002, 0xF00F, .popr, [.r, .r]⟩ (by decide) rfl rfl (hits_fixed 4 0 0 2 15 0 0 15 4 rd ra 2 (by simp [and_full]))

theorem EncodeFitsRow.pushn (rs : Reg) (ra : Reg) : EncodeFitsRow.Statement (.pushn rs ra) :=
  fits_row ⟨0x4003, 0xF00F, .pushn, [.r, .r]⟩ (by decide) rfl rfl (hits_fixed 4 0 0 3 15 0 0 15 4 rs ra 3 (by simp [and_full]))

theorem EncodeFitsRow.addn (r : Reg) (n : Int) : EncodeFitsRow.Statement (.addn r n) :=
  fits_row ⟨0x5000, 0xF000, .addn, [.r, .s]⟩ (by decide) rfl (append_byte 5 r n) (hits_fixed 5 0 0 0 15 0 0 0 _ _ _ _ (by simp [and_full]))

theorem EncodeFitsRow.nop : EncodeFitsRow.Statement (.nop) := by
  unfold EncodeFitsRow.Statement; decide

theorem EncodeFitsRow.mov (rd : Reg) (rs : Reg) : EncodeFitsRow.Statement (.mov rd rs) :=
  fits_row ⟨0x6000, 0xF00F, .mov, [.r, .r]⟩ (by decide) rfl rfl (hits_fixed 6 0 0 0 15 0 0 15 6 rd rs 0 (by simp [and_full]))

theorem EncodeFitsRow.add (rd : Reg) (rx : Reg) (ry : Reg) : EncodeFitsRow.Statement (.add rd rx ry) :=
  fits_row ⟨0x6000, 0xF000, .add, [.r, .r, .r]⟩ (by decide) rfl rfl (hits_fixed 6 0 0 0 15 0 0 0 6 rd rx ry (by simp [and_full]))

theorem EncodeFitsRow.neg (rd : Reg) (rx : Reg) : EncodeFitsRow.Statement (.neg rd rx) :=
  fits_row ⟨0x7000, 0xF0F0, .neg, [.r, .z, .r]⟩ (by decide) rfl rfl (hits_fixed 7 0 0 0 15 0 15 0 7 rd 0 rx (by simp [and_full]))

theorem EncodeFitsRow.sub (rd : Reg) (rx : Reg) (ry : Reg) : EncodeFitsRow.Statement (.sub rd rx ry) :=
  fits_row ⟨0x7000, 0xF000, .sub, [.r, .r, .r]⟩ (by decide) rfl rfl (hits_fixed 7 0 0 0 15 0 0 0 7 rd rx ry (by simp [and_full]))

theorem EncodeFitsRow.mul (rd : Reg) (rx : Reg) (ry : Reg) : EncodeFitsRow.Statement (.mul rd rx ry) :=
  fits_row ⟨0x8000, 0xF000, .mul, [.r, .r, .r]⟩ (by decide) rfl rfl (hits_fixed 8 0 0 0 15 0 0 0 8 rd rx ry (by simp [and_full]))

theorem EncodeFitsRow.div (rd : Reg) (rx : Reg) (ry : Reg) : EncodeFitsRow.Statement (.div rd rx ry) :=
  fits_row ⟨0x9000, 0xF000, .div, [.r, .r, .r]⟩ (by decide) rfl rfl (hits_fixed 9 0 0 0 15 0 0 0 9 rd rx ry (by simp [and_full]))

theorem EncodeFitsRow.mod (rd : Reg) (rx : Reg) (ry : Reg) : EncodeFitsRow.Statement (.mod rd rx ry) :=
  fits_row ⟨0xA000, 0xF000, .mod, [.r, .r, .r]⟩ (by decide) rfl rfl (hits_fixed 10 0 0 0 15 0 0 0 10 rd rx ry (by simp [and_full]))

theorem EncodeFitsRow.jump (addr : Int) : EncodeFitsRow.Statement (.jump addr) :=
  fits_row ⟨0xB000, 0xFF00, .jump, [.z, .u]⟩ (by decide) rfl (append_byte 11 0 addr) (hits_fixed 11 0 0 0 15 15 0 0 _ _ _ _ (by simp [and_full]))

theorem EncodeFitsRow.call (r : Reg) (addr : Int) : EncodeFitsRow.Statement (.call r addr) :=
  fits_row ⟨0xB000, 0xF000, .call, [.r, .u]⟩ (by decide) rfl (append_byte 11 r addr) (hits_fixed 11 0 0 0 15 0 0 0 _ _ _ _ (by simp [and_full]))

theorem EncodeFitsRow.jeqz (r : Reg) (addr : Int) : EncodeFitsRow.Statement (.jeqz r addr) :=
  fits_row ⟨0xC000, 0xF000, .jeqz, [.r, .u]⟩ (by decide) rfl (append_byte 12 r addr) (hits_fixed 12 0 0 0 15 0 0 0 _ _ _ _ (by simp [and_full]))

theorem EncodeFitsRow.jnez (r : Reg) (addr : Int) : EncodeFitsRow.Statement (.jnez r addr) :=
  fits_row ⟨0xD000, 0xF000, .jnez, [.r, .u]⟩ (by decide) rfl (append_byte 13 r addr) (hits_fixed 13 0 0 0 15 0 0 0 _ _ _ _ (by simp [and_full]))

theorem EncodeFitsRow.jgtz (r : Reg) (addr : Int) : EncodeFitsRow.Statement (.jgtz r addr) :=
  fits_row ⟨0xE000, 0xF000, .jgtz, [.r, .u]⟩ (by decide) rfl (append_byte 14 r addr) (hits_fixed 14 0 0 0 15 0 0 0 _ _ _ _ (by simp [and_full]))

theorem EncodeFitsRow.jltz (r : Reg) (addr : Int) : EncodeFitsRow.Statement (.jltz r addr) :=
  fits_row ⟨0xF000, 0xF000, .jltz, [.r, .u]⟩ (by decide) rfl (append_byte 15 r addr) (hits_fixed 15 0 0 0 15 0 0 0 _ _ _ _ (by simp))

theorem EncodeFitsRow.data (w : Word) : EncodeFitsRow.Statement (.data w) :=
  ⟨⟨0, 0, .data, [.n]⟩, by decide, rfl, by simp [Row.hits]⟩

end Sys2Proof.Laws
end

