-- ==== Sys2Proof/Tests/Slice0.lean ====
section
/-! SUPPORT. The model's own tests: ill-formed terms the check refuses, words written out from the spec's encodings, one step on small states, and for every obligation with hypotheses a state and operands that meet them. Expected values are those of spec/95_test_vectors.md (named VD, VS, VM, VA, VC, VF there), derived there from the rules, or are worked by hand from the rule cited. -/

namespace Sys2Proof.Tests

open Sys2Proof.Machine Sys2Proof.Safety

/-! ## Helpers -/

/-- The machine after reset with a pc, some registers and some memory words. -/
def mk (pc : Int) (regs : List (Reg × Int)) (words : List (Nat × Word)) : State :=
  words.foldl (fun s c => placeWord s c.1 c.2)
    (regs.foldl (fun s c => setReg s c.1 c.2) { State.reset with pc := pc })

/-- The next state, if that is the answer. -/
def nextOf : Result → Option State
  | .next t => some t
  | .fault _ => none
  | .refused _ => none

/-- The refusal, if that is the answer. -/
def refusalOf : Result → Option Refusal
  | .next _ => none
  | .fault _ => none
  | .refused r => some r

/-- A property of the state an instruction leads to. -/
def leads {α : Type} (i : Instr) (s : State) (f : State → α) : Option α := (nextOf (exec i s)).map f

/-- A property of the state a step leads to. -/
def steps {α : Type} (s : State) (f : State → α) : Option α := (nextOf (step s)).map f

/-! ## Ill-formed terms (R63, R64, R68) -/

/-- 0x6000 is the word of `nop`. -/
theorem test_wf_mov : (Instr.mov 0 0).wellFormed = false := by decide

/-- 0x6120 is the word of `mov r1, r2`. -/
theorem test_wf_add : (Instr.add 1 2 0).wellFormed = false := by decide

/-- 0x7302 is the word of `neg r3, r2`. -/
theorem test_wf_sub : (Instr.sub 3 0 2).wellFormed = false := by decide

/-- 0xB007 is the word of `jump 7`. -/
theorem test_wf_call : (Instr.call 0 7).wellFormed = false := by decide

/-- The words of `halt`, `read r15`, `jumpi 255`, `pushn r2, r1` and `nop` are no data. -/
theorem test_wf_data :
    ((Instr.data 0x0000).wellFormed, (Instr.data 0x0F01).wellFormed, (Instr.data 0x0FF3).wellFormed,
      (Instr.data 0x4213).wellFormed, (Instr.data 0x6000).wellFormed) =
      (false, false, false, false, false) := by decide

/-- VD, census: the strays are in the two holes of R64. -/
theorem test_wf_strays :
    (isStray 0x0100, isStray 0x0004, isStray 0x0011, isStray 0x00F2, isStray 0x0FFF,
      isStray 0x4004, isStray 0x4FFF) = (true, true, true, true, true, true, true) := by decide

/-- R66: an address is 0 to 255. -/
theorem test_wf_addresses :
    [Instr.jumpi 256, .load 1 256, .store 1 (-1), .jump (-1), .call 1 256, .jeqz 1 256, .jnez 1 (-1),
      .jgtz 1 256, .jltz 1 256].map Instr.wellFormed = List.replicate 9 false := by decide

/-- R66: a number is -128 to 127. -/
theorem test_wf_numbers :
    [Instr.loadn 1 128, .loadn 1 (-129), .addn 1 128, .addn 1 (-129)].map Instr.wellFormed =
      List.replicate 4 false := by decide

/-! ## Words written out from the pattern column of R60 (VD) -/

theorem test_decode_halt : decode 0b0000000000000000 = .instr (.halt) := by decide
theorem test_decode_read : decode 0b0000111100000001 = .instr (.read 15) := by decide
theorem test_decode_write : decode 0b0000000100000010 = .instr (.write 1) := by decide
theorem test_decode_jumpi : decode 0b0000000100000011 = .instr (.jumpi 16) := by decide
theorem test_decode_loadn : decode 0b0001000110000000 = .instr (.loadn 1 (-128)) := by decide
theorem test_decode_load : decode 0b0010001011001000 = .instr (.load 2 200) := by decide
theorem test_decode_store : decode 0b0011000111001000 = .instr (.store 1 200) := by decide
theorem test_decode_loadi : decode 0b0100001000010000 = .instr (.loadi 2 1) := by decide
theorem test_decode_storei : decode 0b0100001000010001 = .instr (.storei 2 1) := by decide
theorem test_decode_popr : decode 0b0100001000010010 = .instr (.popr 2 1) := by decide
theorem test_decode_pushn : decode 0b0100001000010011 = .instr (.pushn 2 1) := by decide
theorem test_decode_addn : decode 0b0101000111111111 = .instr (.addn 1 (-1)) := by decide
theorem test_decode_nop : decode 0b0110000000000000 = .instr (.nop) := by decide
theorem test_decode_mov : decode 0b0110000100100000 = .instr (.mov 1 2) := by decide
theorem test_decode_add : decode 0b0110000100100001 = .instr (.add 1 2 1) := by decide
theorem test_decode_neg : decode 0b0111001100000100 = .instr (.neg 3 4) := by decide
theorem test_decode_sub : decode 0b0111001100010100 = .instr (.sub 3 1 4) := by decide
theorem test_decode_mul : decode 0b1000001100010010 = .instr (.mul 3 1 2) := by decide
theorem test_decode_div : decode 0b1001001100010010 = .instr (.div 3 1 2) := by decide
theorem test_decode_mod : decode 0b1010001100010010 = .instr (.mod 3 1 2) := by decide
theorem test_decode_jump : decode 0b1011000000010100 = .instr (.jump 20) := by decide
theorem test_decode_call : decode 0b1011111000011110 = .instr (.call 14 30) := by decide
theorem test_decode_jeqz : decode 0b1100000100001001 = .instr (.jeqz 1 9) := by decide
theorem test_decode_jnez : decode 0b1101000100001001 = .instr (.jnez 1 9) := by decide
theorem test_decode_jgtz : decode 0b1110000100001001 = .instr (.jgtz 1 9) := by decide
theorem test_decode_jltz : decode 0b1111000100001001 = .instr (.jltz 1 9) := by decide
theorem test_decode_data : decode 0b0100000100101111 = .instr (.data 0x412F) := by decide


/-- The note under VD: 1101 is `jnez`, 1110 is `jgtz`, 1111 is `jltz`. -/
theorem test_decode_last_rows :
    (decode 0xD109, decode 0xE109, decode 0xF109) =
      (.instr (.jnez 1 9), .instr (.jgtz 1 9), .instr (.jltz 1 9)) := by decide

/-- The number given to the host's reading of the table is the word as it stands. -/
theorem test_decodeTableWord : decodeTableWord 16 0xBE1E = some (.call 14 30) := by decide

/-- Assembling is the VD table read backwards (R68). -/
theorem test_encode : (encode (.neg 3 4), encode (.jumpi 16), encode (.addn 1 (-1))) =
    (0x7304, 0x0103, 0x51FF) := by decide

/-- R57: a field string that asks for more than the 12 operand bits is refused. -/
theorem test_decodeRow_illFormed :
    decodeRow ⟨0, 0, .data, [.r, .u, .r]⟩ 0x1234 = .illFormedRow .data := by decide

/-- A field that yields no register, and a field string with too few values. -/
theorem test_decodeRow_unfit :
    (decodeRow ⟨0, 0, .mov, [.r, .u]⟩ 0x12FF, decodeRow ⟨0, 0, .add, [.r, .r]⟩ 0x1234) =
      (.unfit .mov, .unfit .add) := by decide

/-- U2: `jump` with the whole word as its operand. -/
theorem test_decodeRow_foreign :
    (decodeRow ⟨0, 0, .jump, [.n]⟩ 0xFFFF, decodeRow ⟨0, 0, .loadn, [.r, .u]⟩ 0x12FF) =
      (.instr (.jump (-1)), .instr (.loadn 2 255)) := by decide

/-! ## One step -/

/-- The word is placed where the step fetches it (VM1b). -/
theorem test_withFetchWord :
    steps (State.reset.withFetchWord 16 0x1180) (fun t => (getReg t 1, t.pc)) =
      some (-128, 1) := by decide

/-- VS1. -/
theorem test_halt :
    leads .halt (mk 0 [] []) (fun t => (t.run, t.pc, t.dump)) =
      some (.halted, 0, none) := by decide

/-- VS12. -/
theorem test_data :
    steps (mk 0 [] [(0, 0x412F)]) (fun t => (t.run, t.pc, t.faultCause, t.dump)) =
      some (.halted, 0, 0, none) := by decide

/-- VS14. -/
theorem test_nop_at_255 :
    steps (mk 255 [] [(255, 0x6000)]) (fun t => (t.run, t.pc)) =
      some (.running, 256) := by decide

/-- VS14. -/
theorem test_fetch_at_256 :
    steps (mk 256 [] []) (fun t => (t.run, t.pc, t.faultCause, t.faultInfo)) =
      some (.faulted, 256, 3, 256) := by decide

/-- VS4. -/
theorem test_read_wraps :
    leads (.read 3) ((mk 0 [] []).supply [.int 40000]) (fun t => (getReg t 3, t.pc, t.inPos)) =
      some (-25536, 1, 1) := by decide

/-- VS7. -/
theorem test_read_bad :
    leads (.read 3) ((mk 0 [] []).supply [.bad])
    (fun t => (t.run, t.faultCause, t.faultInfo, t.pc, t.inPos)) =
      some (.faulted, 5, 0, 0, 1) := by decide

/-- VS9. -/
theorem test_write :
    leads (.write 1) (mk 0 [(1, -1)] []) (fun t => (t.out, t.pc)) =
      some ([-1], 1) := by decide

/-- VS13. -/
theorem test_no_row :
    (nextOf (cycle (Config.encTable.take 26) (mk 0 [] [(0, 0x0100)]))).map
    (fun t => (t.run, t.faultCause, t.faultInfo, t.pc)) =
      some (.faulted, 2, 256, 0) := by decide

/-- U2: the whole word as the target, which no fetch can read afterwards. -/
theorem test_foreign_jump :
    (nextOf (cycle [⟨0, 0, .jump, [.n]⟩] (mk 0 [] [(0, 0xFFFF)]))).map (fun t => (t.run, t.pc)) =
      some (.running, -1) := by decide

/-- A pc that another table's jump has left below 0. -/
theorem test_fetch_below :
    steps (mk (-1) [] []) (fun t => (t.run, t.pc, t.faultCause, t.faultInfo)) =
      some (.faulted, -1, 3, -1) := by decide

/-- R57: the ill-formed row is not the one that matches. -/
theorem test_table_refused :
    refusalOf (cycle [⟨0, 0xFFFF, .halt, []⟩, ⟨1, 0xFFFF, .nop, [.u, .u]⟩] (mk 0 [] [])) =
      some .illFormedTable := by decide

/-- VM1b. -/
theorem test_loadn :
    leads (.loadn 1 (-128)) (mk 0 [] []) (fun t => (getReg t 1, t.pc)) =
      some (-128, 1) := by decide

/-- VM2b. -/
theorem test_load_signed :
    leads (.load 2 200) (mk 0 [] [(200, 0x8000)]) (fun t => (getReg t 2, t.pc)) =
      some (-32768, 1) := by decide

/-- VM2c. -/
theorem test_load_own_word :
    steps (mk 0 [] [(0, 0x2200)]) (fun t => getReg t 2) =
      some 8704 := by decide

/-- VM3b. -/
theorem test_store_unsigned :
    leads (.store 1 200) (mk 0 [(1, -32768)] []) (fun t => ((t.mem.readWord 200).toNat, t.pc)) =
      some (32768, 1) := by decide

/-- VM3c: the canonical form drops the two cells. -/
theorem test_store_zero :
    leads (.store 0 200) (mk 0 [] [(200, 77)]) (fun t => t.mem) =
      some [] := by decide

/-- VM4a. -/
theorem test_loadi :
    leads (.loadi 2 1) (mk 0 [(1, 100)] [(100, 4660)]) (fun t => (getReg t 2, t.pc)) =
      some (4660, 1) := by decide

/-- VM4c. -/
theorem test_loadi_negative :
    leads (.loadi 2 1) (mk 0 [(1, -1)] []) (fun t => (t.run, t.faultCause, t.faultInfo, t.pc)) =
      some (.faulted, 3, -1, 0) := by decide

/-- VM5a. -/
theorem test_storei_at_255 :
    leads (.storei 2 1) (mk 0 [(1, 255), (2, -2)] [])
    (fun t => ((t.mem.readWord 255).toNat, t.pc)) =
      some (65534, 1) := by decide

/-- VM5b. -/
theorem test_storei_at_300 :
    leads (.storei 2 1) (mk 0 [(1, 300), (2, 5)] [])
    (fun t => (t.run, t.faultInfo, t.mem)) =
      some (.faulted, 300, []) := by decide

/-- VM6a. -/
theorem test_popr :
    leads (.popr 2 1) (mk 0 [(1, 50)] [(50, 9), (49, 8)]) (fun t => (getReg t 2, getReg t 1, t.pc)) =
      some (9, 49, 1) := by decide

/-- VM6g. -/
theorem test_popr_same_register :
    leads (.popr 1 1) (mk 0 [(1, 50)] [(50, 0x8000)]) (fun t => getReg t 1) =
      some 32767 := by decide

/-- VM8b. -/
theorem test_pushn_same_register :
    leads (.pushn 1 1) (mk 0 [(1, 20)] []) (fun t => ((t.mem.readWord 20).toNat, getReg t 1)) =
      some (20, 21) := by decide

/-- VM8d. -/
theorem test_pushn_at_255 :
    leads (.pushn 2 1) (mk 0 [(1, 255), (2, 1)] [])
    (fun t => (t.run, (t.mem.readWord 255).toNat, getReg t 1)) =
      some (.running, 1, 256) := by decide

/-- VA1. -/
theorem test_addn_wraps :
    leads (.addn 1 1) (mk 0 [(1, 32767)] []) (fun t => (getReg t 1, t.pc)) =
      some (-32768, 1) := by decide

/-- VA2. -/
theorem test_addn_negative :
    leads (.addn 1 (-128)) (mk 0 [(1, -32768)] []) (fun t => getReg t 1) =
      some 32640 := by decide

/-- VA5. -/
theorem test_mov :
    leads (.mov 1 2) (mk 0 [(2, -5)] []) (fun t => (getReg t 1, t.pc)) =
      some (-5, 1) := by decide

/-- VA7. -/
theorem test_mov_to_r0 :
    leads (.mov 0 2) (mk 0 [(2, 7)] []) (fun t => (getReg t 0, t.pc)) =
      some (0, 1) := by decide

/-- VA9. -/
theorem test_add_wraps :
    leads (.add 3 1 2) (mk 0 [(1, -32768), (2, -32768)] []) (fun t => (getReg t 3, t.pc)) =
      some (0, 1) := by decide

/-- VA10. -/
theorem test_add_same_register :
    leads (.add 1 1 1) (mk 0 [(1, 20000)] []) (fun t => getReg t 1) =
      some (-25536) := by decide

/-- VA13. -/
theorem test_neg_of_least :
    leads (.neg 1 2) (mk 0 [(2, -32768)] []) (fun t => (getReg t 1, t.pc)) =
      some (-32768, 1) := by decide

/-- VA15. -/
theorem test_sub_wraps :
    leads (.sub 3 1 2) (mk 0 [(1, -32768), (2, 1)] []) (fun t => (getReg t 3, t.pc)) =
      some (32767, 1) := by decide

/-- VA18. -/
theorem test_mul_wraps :
    leads (.mul 3 1 2) (mk 0 [(1, 300), (2, 300)] []) (fun t => (getReg t 3, t.pc)) =
      some (24464, 1) := by decide

/-- VA21b. -/
theorem test_mul_wraps_negative :
    leads (.mul 3 1 2) (mk 0 [(1, 181), (2, 182)] []) (fun t => getReg t 3) =
      some (-32594) := by decide

/-- VA26. -/
theorem test_div_floor :
    leads (.div 3 1 2) (mk 0 [(1, -7), (2, 2)] []) (fun t => (getReg t 3, t.pc)) =
      some (-4, 1) := by decide

/-- VA29. -/
theorem test_div_wraps :
    leads (.div 3 1 2) (mk 0 [(1, -32768), (2, -1)] []) (fun t => (t.run, getReg t 3)) =
      some (.running, -32768) := by decide

/-- VA28. -/
theorem test_mod_floor :
    leads (.mod 3 1 2) (mk 0 [(1, 7), (2, -2)] []) (fun t => (getReg t 3, t.pc)) =
      some (-1, 1) := by decide

/-- VA23. -/
theorem test_mod_by_zero :
    leads (.mod 0 1 2) (mk 0 [(1, 5)] []) (fun t => (t.run, t.faultCause, t.faultInfo, t.pc)) =
      some (.faulted, 4, 0, 0) := by decide

/-- VA26, VA27 in the other mode. -/
theorem test_trunc :
    some (fdiv .trunc (-7) 2, fmod .trunc (-7) 2) =
      some (-3, -1) := by decide

/-- VC1. -/
theorem test_jumpi :
    leads (.jumpi 255) (mk 0 [] []) (fun t => t.pc) =
      some 255 := by decide

/-- VC3. -/
theorem test_jump :
    leads (.jump 200) (mk 0 [] []) (fun t => t.pc) =
      some 200 := by decide

/-- VC6. -/
theorem test_call :
    leads (.call 2 100) (mk 7 [] []) (fun t => (getReg t 2, t.pc)) =
      some (7, 100) := by decide

/-- VC8. -/
theorem test_jeqz_taken :
    leads (.jeqz 1 9) (mk 0 [] []) (fun t => t.pc) =
      some 9 := by decide

/-- VC10. -/
theorem test_jeqz_not_taken :
    leads (.jeqz 1 9) (mk 0 [(1, -5)] []) (fun t => t.pc) =
      some 1 := by decide

/-- VC12. -/
theorem test_jgtz_taken :
    leads (.jgtz 1 9) (mk 0 [(1, 1)] []) (fun t => t.pc) =
      some 9 := by decide

/-- VC13. -/
theorem test_jgtz_not_taken :
    leads (.jgtz 1 9) (mk 0 [] []) (fun t => t.pc) =
      some 1 := by decide

/-- VC20. -/
theorem test_jltz_taken :
    leads (.jltz 1 9) (mk 0 [(1, -32768)] []) (fun t => t.pc) =
      some 9 := by decide

/-- VC18. -/
theorem test_jltz_not_taken :
    leads (.jltz 1 9) (mk 0 [] []) (fun t => t.pc) =
      some 1 := by decide

/-- VC22. -/
theorem test_jnez_taken :
    leads (.jnez 1 9) (mk 0 [(1, -1)] []) (fun t => t.pc) =
      some 9 := by decide

/-- VC23. -/
theorem test_jnez_not_taken :
    leads (.jnez 1 9) (mk 0 [] []) (fun t => t.pc) =
      some 1 := by decide

/-- VF1: the record of the state the faulting step began in. -/
theorem test_fault_dump :
    leads (.div 2 1 0) (mk 1 [(1, 5)] [(0, 0x1105)])
    (fun t => t.dump.map (fun d => (d.pc, d.regs.take 2, d.rows.map (·.take 1)))) =
      some (some (1, [5, 0], [0x1105] :: List.replicate 15 [0])) := by decide

/-- S1, R160: the first two words of the image, and zeros after it. -/
theorem test_launch :
    (nextOf (launch (.image [0x1105, 0x1203] 2))).map
    (fun t => ((t.mem.readWord 0).toNat, (t.mem.readWord 1).toNat, (t.mem.readWord 2).toNat, t.pc)) =
      some (0x1105, 0x1203, 0, 0) := by decide

/-- S4, R163. -/
theorem test_loader_version :
    (LoaderResult.ofVersion 0 [] 0, LoaderResult.ofVersion 1 [] 0, LoaderResult.ofVersion 2 [] 0) =
      (.image [] 0, .image [] 0, .loadError) := by decide

/-! ## States and operands that meet the statements' hypotheses

One theorem per obligation that has hypotheses, with a part for each clause, at boundary values. -/

/-- The two ranges of the wraps, and both clauses of `sext` at its boundary. -/
theorem test_witness_WrapsReduceModulo65536 :
    (-32768 : Int) ≤ 32767 ∧ wrap16 (uwrap16 (-32768)) = -32768 ∧ uwrap16 (wrap16 65535) = 65535 ∧
      ((127 : Int) < 2 ^ (8 - 1) ∧ sext 8 127 = 127) ∧
      (¬ (128 : Int) < 2 ^ (8 - 1) ∧ sext 8 128 = -128) := by decide

/-- A register other than r0. -/
theorem test_witness_RegisterReadSeesZeroInR0 :
    (15 : Reg) ≠ 0 ∧ getReg (mk 0 [(15, -32768)] []) 15 = -32768 := by decide

/-- An integer token, addresses just outside memory, a zero divisor. -/
theorem test_witness_RegisterWriteWrapsAndR0Swallows :
    nextToken ((mk 0 [] []).supply [.int 65535]) = some (.int 65535) ∧
      inRange (0 : Int) ∧ inRange (255 : Int) ∧
      ¬ inRange (getReg (mk 0 [(1, -1)] []) 1) ∧ ¬ inRange (getReg (mk 0 [(1, 256)] []) 1) ∧
      getReg (mk 0 [] []) 2 = 0 ∧ (∃ t, exec (.loadn 0 5) (mk 0 [] []) = .next t) :=
  ⟨by decide, by decide, by decide, by decide, by decide, by decide, _, rfl⟩

/-- Both ends of memory, both sides outside it, and a word of 32768. -/
theorem test_witness_MemReadInRangeOrFaults :
    inRange 0 ∧ inRange 255 ∧ ((-1 : Int) < 0 ∨ (255 : Int) < -1) ∧ ((256 : Int) < 0 ∨ (255 : Int) < 256) ∧
      inRange (200 : Int) ∧ 32768 ≤ ((mk 0 [] [(200, 0x8000)]).mem.readWord (200 : Int).toNat).toNat ∧
      (inRange (getReg (mk 0 [(1, 255)] [(255, 0x8000)]) 1) ∧ (2 : Reg) ≠ 0 ∧ (2 : Reg) ≠ 1 ∧
        32768 ≤ ((mk 0 [(1, 255)] [(255, 0x8000)]).mem.readWord 255).toNat) := by decide

/-- Both ends of memory with both ends of the stored range; both sides outside. -/
theorem test_witness_MemWriteThenReadRoundTrip :
    ((0 : Int) ≤ 0 ∧ (0 : Int) ≤ 255 ∧ (0 : Int) ≤ 65535) ∧ ((0 : Int) ≤ 255 ∧ (255 : Int) ≤ 255) ∧
      ((-1 : Int) < 0 ∨ (255 : Int) < -1) ∧ ((256 : Int) < 0 ∨ (255 : Int) < 256) ∧
      (2 : Reg) ≠ 0 ∧ inRange (getReg (mk 0 [(1, 255)] []) 1) ∧
      inRange (getReg (mk 0 [] []) 1) := by decide

/-- Two canonical memories, and the last word of memory. -/
theorem test_witness_CanonicalMemoryIsKeptAndUnique :
    Memory.wf [(510, 1), (511, 2)] ∧ Memory.wf [] ∧ 255 ≤ 255 ∧
      ¬ Memory.wf [(0, 0)] ∧ ¬ Memory.wf [(512, 1)] ∧ ¬ Memory.wf [(1, 1), (0, 1)] := by decide

/-- A store to the next word, by a direct and by a computed address, at both ends of memory. -/
theorem test_witness_StoresAndJumpsReachTheNextFetch :
    (inRange (directAddr 1) ∧ directAddr 1 = (mk 0 [] []).pc + 1) ∧
      (inRange (directAddr 255) ∧ directAddr 255 = (mk 254 [] []).pc + 1) ∧
      (inRange (indirectAddr (mk 254 [(1, 255)] []) 1) ∧
        indirectAddr (mk 254 [(1, 255)] []) 1 = (mk 254 [(1, 255)] []).pc + 1) ∧
      inRange (0 : Int) ∧ inRange (255 : Int) := by decide

/-- The cursors from which 4 and 8 bits can be taken, at their bounds. -/
theorem test_witness_FieldCodesSliceBelowTheCursor :
    (8 ≤ 12 ∧ 12 ≤ 12 ∧ decodeFrom 0x0FF3 12 [.u, .z] = [255]) ∧
      (8 ≤ 8 ∧ 8 ≤ 12 ∧ decodeFrom 0x1180 8 [.s] = [-128]) ∧
      (4 ≤ 4 ∧ 4 ≤ 12 ∧ decodeFrom 0x7304 4 [.r] = [4]) := by decide

/-- A table with two matching rows, of which the first wins, and one in which no row matches. -/
theorem test_witness_FirstMatchingRowWins :
    firstMatch [⟨0, 0xFFFF, .halt, []⟩, ⟨0, 0, .data, [.n]⟩] 0 = some ⟨0, 0xFFFF, .halt, []⟩ ∧
      firstMatch [⟨0, 0xFFFF, .halt, []⟩] 1 = none := by decide

/-- The strings at and past the bounds, and a table of either kind. -/
theorem test_witness_IllFormedTableIsRefused :
    (fieldsOk [.r, .r, .r], fieldsOk [.n], fieldsOk [.u, .u], fieldsOk [.n, .z], fieldsOk []) =
      (true, true, false, false, true) ∧
      (∃ row ∈ [(⟨0, 0, .nop, [.u, .u]⟩ : Row)], fieldsOk row.fields = false) := by decide

/-- A row whose fields fit, a row whose fields do not (a register operand of 255), a `data` row, each
as the first match in a table that is not refused, and a direct address just outside memory on both
sides. -/
theorem test_witness_FieldsOfAnotherTableYieldTheirValues :
    let jump : Row := ⟨0xB000, 0xF000, .jump, [.n]⟩
    let mov : Row := ⟨0x6000, 0xF000, .mov, [.r, .u]⟩
    let word : Row := ⟨0, 0, .data, [.r]⟩
    let table := [jump, mov, word]
    let at_ := fun w : Word => placeWord (mk 0 [] []) 0 w
    tableOk table = true ∧ (at_ 0).run = .running ∧
      (fetch (at_ 0xB001) = .ok 0xB001 ∧ firstMatch table 0xB001 = some jump ∧
        decodeRow jump 0xB001 = .instr (.jump (-20479)) ∧
        (Instr.jump (-20479)).operands <+: decodeOperands 0xB001 jump.fields) ∧
      (fetch (at_ 0x61FF) = .ok 0x61FF ∧ firstMatch table 0x61FF = some mov ∧
        decodeRow mov 0x61FF = .unfit .mov) ∧
      (fetch (at_ 0x1234) = .ok 0x1234 ∧ firstMatch table 0x1234 = some word ∧
        decodeRow word 0x1234 = .instr (.data 0x1234)) ∧
      ¬ inRange (-1 : Int) ∧ ¬ inRange (256 : Int) := by decide

/-- A row of the table. -/
theorem test_witness_DefaultTableIsWellFormed :
    (⟨0x0000, 0x0000, .data, [.n]⟩ : Row) ∈ Config.encTable := by decide

/-- A well-formed instruction of a shape whose neighbour is claimed by an earlier row. -/
theorem test_witness_DecodeOfEncode : (Instr.add 15 15 1).wellFormed = true ∧
    (Instr.data 0x4FFF).wellFormed = true := by decide

/-- A running machine with a decodable word at its pc, at address 255 (VC7). -/
theorem test_witness_StepRunsTheDecodedInstruction :
    (mk 255 [] [(255, 0xB3FF)]).run = .running ∧ inRange (mk 255 [] [(255, 0xB3FF)]).pc ∧
      decode ((mk 255 [] [(255, 0xB3FF)]).mem.readWord 255) = .instr (.call 3 255) ∧
      (Instr.call 3 255).wellFormed = true := by decide

/-- Running just past either end of memory. -/
theorem test_witness_FetchPastMemoryFaults :
    ((mk 256 [] []).run = .running ∧ ((mk 256 [] []).pc < 0 ∨ 256 ≤ (mk 256 [] []).pc)) ∧
      (mk (-1) [] []).run = .running ∧ ((mk (-1) [] []).pc < 0 ∨ 256 ≤ (mk (-1) [] []).pc) := by
  decide

/-- A halted and a faulted machine. -/
theorem test_witness_StoppedMachineStaysAsItIs :
    (haltRun (mk 0 [] [])).run = .halted ∧
      (takeFault .arithmeticFault (mk 0 [] [])).run = .faulted := by decide

/-- A running machine whose step halts, and one that is not running. -/
theorem test_witness_EveryStepAnswersANextState :
    steps (mk 0 [] []) (fun t => t.run) = some .halted ∧ (mk 0 [] []).run = .running ∧
      (haltRun (mk 0 [] [])).run ≠ .running := by decide

/-- A stray word and one that is none, each fetched. -/
theorem test_witness_TableWithoutDataRowFaultsOnStrayWords :
    (mk 0 [] [(0, 0x0100)]).run = .running ∧ (mk 0 [] [(0, 0x4213)]).run = .running ∧
      (∃ w, fetch (mk 0 [] [(0, 0x0100)]) = .ok w ∧ isStray w = true) ∧
      (∃ w, fetch (mk 0 [] [(0, 0x4213)]) = .ok w ∧ isStray w = false) :=
  ⟨rfl, rfl, ⟨0x0100, rfl, by decide⟩, ⟨0x4213, rfl, by decide⟩⟩

/-- A table of one row that a fetched word does not match. -/
theorem test_witness_UnmatchedWordRaisesDecodeFault :
    (mk 0 [] [(0, 0x0100)]).run = .running ∧ fetch (mk 0 [] [(0, 0x0100)]) = .ok 0x0100 ∧
      (∀ row ∈ [(⟨0, 0xFFFF, .halt, []⟩ : Row)], fieldsOk row.fields = true) ∧
      ∀ row ∈ [(⟨0, 0xFFFF, .halt, []⟩ : Row)], (0x0100 : Word) &&& row.mask ≠ row.pattern :=
  ⟨rfl, rfl, by decide, by decide⟩

/-- A machine in mid run, one that has halted and one that has faulted, all three satisfying the
invariant, and a next state of the first. -/
theorem test_witness_EveryStepKeepsTheInvariant :
    (Invariant (mk 255 [(1, -5)] [(255, 0x0102)]) ∧
      ∃ t, step (mk 255 [(1, -5)] [(255, 0x0102)]) = .next t) ∧
      Invariant (haltRun (mk 7 [] [])) ∧ Invariant (takeFault (.memoryBoundsFault (-1)) (mk 7 [] [])) :=
  ⟨⟨⟨by decide, by decide, by decide, by decide, by decide, fun _ => ⟨rfl, rfl, rfl⟩,
      fun h => by cases h⟩, _, rfl⟩,
    ⟨by decide, by decide, by decide, by decide, by decide, fun _ => ⟨rfl, rfl, rfl⟩,
      fun h => by cases h⟩,
    ⟨by decide, by decide, by decide, by decide, by decide, fun h => absurd rfl h,
      fun _ => ⟨by unfold CauseOk; decide, rfl⟩⟩⟩

/-- The same states serve a run of any length; here one step of one. -/
theorem test_witness_EveryRunKeepsTheInvariant :
    Invariant (haltRun (mk 255 [] [])) ∧ ∃ t : State, core.run 1 (haltRun (mk 255 [] [])) = .next t :=
  ⟨⟨by decide, by decide, by decide, by decide, by decide, fun _ => ⟨rfl, rfl, rfl⟩,
    fun h => by cases h⟩, _, rfl⟩

/-- An image that fits, one whose length is wrong and one that is too long. -/
theorem test_witness_LaunchLoadsTheImage :
    ([0x0000] : List Word).length ≤ 256 ∧ (List.replicate 256 (0 : Word)).length ≤ 256 ∧
      (256 < 257 ∨ 257 ≠ ([] : List Word).length) ∧ (256 < 1 ∨ 1 ≠ ([] : List Word).length) :=
  ⟨by decide, List.length_replicate.le, by decide, by decide⟩

/-- Each kind of instruction answers: a call, a branch taken and one not, a fault, an instruction
that goes on. -/
theorem test_witness_PcRuleOfEveryInstruction :
    (leads (.call 14 255) (mk 0 [] []) (fun t => t.pc) = some 255) ∧
      (leads (.jnez 1 9) (mk 255 [] []) (fun t => t.pc) = some 256) ∧
      (leads (.div 0 1 2) (mk 3 [] []) (fun t => (t.run, t.pc)) = some (.faulted, 3)) ∧
      (leads (.mov 1 2) (mk 255 [] []) (fun t => (t.run, t.pc)) = some (.running, 256)) ∧
      Mnemonic.mov ∉ [Mnemonic.jumpi, .jump, .call, .jeqz, .jgtz, .jltz, .jnez] := by decide

/-- A step that faults in its execute phase, and one that faults on a `Bad` token. -/
theorem test_witness_FaultsArePrecise :
    (mk 0 [(1, 5)] [(0, 0x9210)]).run = .running ∧
      ((mk 0 [] [(0, 0x0101)]).supply [.bad]).run = .running ∧
      steps (mk 0 [(1, 5)] [(0, 0x9210)]) (fun t => (t.run, t.inPos)) = some (.faulted, 0) ∧
      steps ((mk 0 [] [(0, 0x0101)]).supply [.bad]) (fun t => (t.run, t.inPos)) =
        some (.faulted, 1) := by decide

/-- One fault of each of the three classes. -/
theorem test_witness_OnlyTheNamedInstructionsFault :
    (mk 0 [] []).run = .running ∧ (mk 0 [(1, 256)] []).run = .running ∧
      leads (.load 2 256) (mk 0 [] []) (fun t => (t.run, t.faultInfo)) = some (.faulted, 256) ∧
      leads (.popr 2 1) (mk 0 [(1, 256)] []) (fun t => (t.run, t.faultCause)) = some (.faulted, 3) ∧
      leads (.mod 3 1 2) (mk 0 [] []) (fun t => (t.run, t.faultCause)) = some (.faulted, 4) ∧
      leads (.read 0) ((mk 0 [] []).supply [.bad]) (fun t => (t.run, t.faultCause)) =
        some (.faulted, 5) := by decide

/-- A step that changes memory. -/
theorem test_witness_OnlyStoresChangeMemory :
    ∃ t, step (mk 0 [(1, -1)] [(0, 0x31C8)]) = .next t ∧
      ¬ SameMemory (mk 0 [(1, -1)] [(0, 0x31C8)]) t :=
  ⟨_, rfl, fun h => absurd (h 400) (by decide)⟩

/-- A step that emits, and one that takes a fault. -/
theorem test_witness_StepsCannotReadOutputOrFaultRegisters :
    steps (mk 0 [(1, -1)] [(0, 0x0102)]) (fun t => (t.out, t.run)) = some ([-1], .running) ∧
      (mk 0 [(1, 5)] [(0, 0x9210)]).run = .running ∧
      steps (mk 0 [(1, 5)] [(0, 0x9210)]) (fun t => t.run) = some .faulted := by decide

/-- A `read` that has its token does not hold. -/
theorem test_witness_SupplyingTokensCommutesWithSteps :
    ¬ Holding ((mk 0 [] [(0, 0x0101)]).supply [.int 5]) ∧
      steps ((mk 0 [] [(0, 0x0101)]).supply [.int 5]) (fun t => t.inPos) = some 1 :=
  ⟨fun ⟨_, _, _, _, _, h⟩ => absurd h (by decide), by decide⟩

/-- A `read` whose token is still to come (VS8). -/
theorem test_witness_HoldIsLiftedBySupplyingAToken :
    Holding (mk 0 [] [(0, 0x0301)]) ∧
      (mk 0 [] [(0, 0x0301)]).inPos = (mk 0 [] [(0, 0x0301)]).input.length :=
  ⟨⟨rfl, 0x0301, 3, rfl, by decide, by decide⟩, by decide⟩

/-- The first and the last register and word of the record. -/
theorem test_witness_DumpRecordHoldsTheWholeState :
    (1 : Reg) ≠ 0 ∧ (15 : Reg) ≠ 0 ∧
      (dumpRecord (mk 0 [(1, -2), (15, 9)] [])).regs[0]? = some (-2) ∧
      (dumpRecord (mk 0 [(1, -2), (15, 9)] [])).regs[14]? = some 9 ∧
      (dumpRecord (mk 0 [] [(255, 7)])).rows[15]?.bind (·[15]?) = some 7 := by decide

/-- An integer outside the 16-bit range at the cursor. -/
theorem test_witness_ReadStoresTheInteger :
    nextToken ((mk 0 [] []).supply [.int (-32769)]) = some (.int (-32769)) := by decide

/-- A `Bad` token at the cursor, and none. -/
theorem test_witness_ReadFaultsOnBadAndHoldsOnNone :
    nextToken ((mk 0 [] []).supply [.bad]) = some .bad ∧ nextToken (mk 0 [] []) = none := by decide

/-- The first and the last word of memory. -/
theorem test_witness_LoadReadsTheDirectAddress :
    ((0 : Int) ≤ (0 : Int) ∧ (0 : Int) ≤ (255 : Int)) ∧
      ((0 : Int) ≤ (255 : Int) ∧ (255 : Int) ≤ (255 : Int)) := by decide

/-- The first and the last word of memory. -/
theorem test_witness_StoreWritesTheDirectAddress :
    ((0 : Int) ≤ (0 : Int) ∧ (0 : Int) ≤ (255 : Int)) ∧
      ((0 : Int) ≤ (255 : Int) ∧ (255 : Int) ≤ (255 : Int)) := by decide

/-- Both ends of the 8-bit signed range. -/
theorem test_witness_LoadnWritesTheConstant :
    (1 : Reg) ≠ 0 ∧ leads (.loadn 1 (-128)) (mk 0 [] []) (fun t => getReg t 1) = some (-128) ∧
      leads (.loadn 1 127) (mk 0 [] []) (fun t => getReg t 1) = some 127 := by decide

/-- The address register at both ends of memory. -/
theorem test_witness_LoadiReadsTheComputedAddress :
    (0 ≤ getReg (mk 0 [] []) 1 ∧ getReg (mk 0 [] []) 1 ≤ 255) ∧
      (0 ≤ getReg (mk 0 [(1, 255)] []) 1 ∧ getReg (mk 0 [(1, 255)] []) 1 ≤ 255) := by decide

/-- The address register at both ends of memory. -/
theorem test_witness_StoreiWritesTheComputedAddress :
    (0 ≤ getReg (mk 0 [] []) 1 ∧ getReg (mk 0 [] []) 1 ≤ 255) ∧
      (0 ≤ getReg (mk 0 [(1, 255)] []) 1 ∧ getReg (mk 0 [(1, 255)] []) 1 ≤ 255) := by decide

/-- The address register at both ends of memory. -/
theorem test_witness_PushnStoresThenIncrements :
    (0 ≤ getReg (mk 0 [] []) 1 ∧ getReg (mk 0 [] []) 1 ≤ 255) ∧
      (0 ≤ getReg (mk 0 [(1, 255)] []) 1 ∧ getReg (mk 0 [(1, 255)] []) 1 ≤ 255) := by decide

/-- `popr` with two registers, with r0 in each place, and with one register (VM6a, VM6e, VM6d,
VM6b). -/
theorem test_witness_PoprReadsThenDecrements :
    ((2 : Reg) ≠ 1 ∧ (2 : Reg) ≠ 0 ∧ (1 : Reg) ≠ 0) ∧
      (0 ≤ getReg (mk 0 [(1, 255)] []) 1 ∧ getReg (mk 0 [(1, 255)] []) 1 ≤ 255) ∧
      leads (.popr 0 1) (mk 0 [(1, 50)] [(50, 9)]) (fun t => (getReg t 0, getReg t 1)) =
        some (0, 49) ∧
      leads (.popr 2 0) (mk 0 [] [(0, 0x4202)]) (fun t => (getReg t 2, getReg t 0)) =
        some (16898, 0) ∧
      leads (.popr 1 1) (mk 0 [(1, 20)] [(20, 500)]) (fun t => getReg t 1) = some 499 := by decide

/-- Both sides just outside memory. -/
theorem test_witness_IndirectFormsFaultOutOfRange :
    (getReg (mk 0 [(1, -1)] []) 1 < 0 ∨ 255 < getReg (mk 0 [(1, -1)] []) 1) ∧
      (getReg (mk 0 [(1, 256)] []) 1 < 0 ∨ 255 < getReg (mk 0 [(1, 256)] []) 1) := by decide

/-- The highest address from which the word after the pushed one exists. -/
theorem test_witness_PushThenPopReadsTheNextWord :
    (2 : Reg) ≠ 1 ∧ (2 : Reg) ≠ 0 ∧ (1 : Reg) ≠ 0 ∧ 0 ≤ getReg (mk 0 [(1, 254)] []) 1 ∧
      getReg (mk 0 [(1, 254)] []) 1 ≤ 254 := by decide

/-- A destination. -/
theorem test_witness_WrappedArithmeticIsModular : (1 : Reg) ≠ 0 ∧ (15 : Reg) ≠ 0 := by decide

/-- The smallest divisor of each sign, in size and in value. -/
theorem test_witness_DivAndModRoundTowardMinusInfinity :
    getReg (mk 0 [(2, 1)] []) 2 ≠ 0 ∧ getReg (mk 0 [(2, -32768)] []) 2 ≠ 0 := by decide

/-- A zero divisor, in a register and in r0. -/
theorem test_witness_ZeroDivisorFaults :
    getReg (mk 0 [] []) 2 = 0 ∧ getReg (mk 0 [(2, 1)] []) 0 = 0 := by decide

/-- Each clause: equal signs, a zero dividend, an exact division, and an inexact one with opposite
signs (R110). -/
theorem test_witness_BothDivisionModes :
    ((0 : Int) ≤ 0 ∧ (0 : Int) < 5) ∧ ((-7 : Int) ≤ 0 ∧ (-2 : Int) < 0) ∧ ((2 : Int) ∣ -8) ∧
      (((-7 : Int) < 0 ∧ (0 : Int) < 2) ∧ ¬ (2 : Int) ∣ -7) ∧
      fdiv .floor (-7) 2 = fdiv .trunc (-7) 2 - 1 ∧
      fmod .floor (-7) 2 = fmod .trunc (-7) 2 + 2 := by decide

/-- The call at the last word of memory (VC7). -/
theorem test_witness_CallLinksItsOwnAddress :
    (3 : Reg) ≠ 0 ∧ 0 ≤ (mk 255 [] []).pc ∧ (mk 255 [] []).pc ≤ 255 ∧
      leads (.call 3 255) (mk 255 [] []) (fun t => (getReg t 3, t.pc)) = some (255, 255) := by decide

end Sys2Proof.Tests
end

section
/-! The two wraps as reductions modulo 65536 (spec/00_scope.md R7). -/

namespace Sys2Proof.Proofs

open Sys2Proof.Machine Sys2Proof.Laws

/-- R7: both wraps of an integer are the same 16 bits, since each has the integer's signed reading. -/
theorem ofInt16_wrap16_eq_ofInt16_uwrap16 (v : Int) :
    BitVec.ofInt 16 (wrap16 v) = BitVec.ofInt 16 (uwrap16 v) := by
  apply BitVec.eq_of_toInt_eq
  calc (BitVec.ofInt 16 (wrap16 v)).toInt
      = wrap16 (wrap16 v) := toInt_ofInt16 _
    _ = wrap16 v := wrap16_wrap16 v
    _ = wrap16 (uwrap16 v) := (wrap16_uwrap16 v).symm
    _ = (BitVec.ofInt 16 (uwrap16 v)).toInt := (toInt_ofInt16 _).symm

theorem sext_of_lt {n : Nat} {v : Int} (h : v < 2 ^ (n - 1)) : sext n v = v := if_pos h

theorem sext_of_not_lt {n : Nat} {v : Int} (h : ¬ v < 2 ^ (n - 1)) : sext n v = v - 2 ^ n :=
  if_neg h

/-- R7: on a 16-bit unsigned integer the signed wrap is `sext_16`: nothing to do below 32768, and
65536 to take off from there on. -/
theorem wrap16_eq_sext16 {u : Int} (h : 0 ≤ u) (h' : u ≤ 65535) : wrap16 u = sext 16 u := by
  by_cases hu : u < 2 ^ (16 - 1)
  · rw [sext_of_lt hu]
    exact wrap16_of_range (by omega) (by omega)
  · rw [sext_of_not_lt hu]
    unfold wrap16
    omega

/-- Settles O1: the range, bit-pattern and inverse laws of the two wraps, put together. -/
theorem wrapsReduceModulo65536 : Obligations.WrapsReduceModulo65536 := by
  unfold Obligations.WrapsReduceModulo65536
  refine ⟨fun v => ?reductions, fun v h h' => ?inverseSigned,
    fun u h h' => ⟨?inverseUnsigned, ?extension⟩, fun n v => ⟨sext_of_lt, sext_of_not_lt, rfl⟩⟩
  case reductions =>
    obtain ⟨hlo, hhi⟩ := wrap16_range v
    obtain ⟨hulo, huhi⟩ := uwrap16_range v
    exact ⟨rfl, hlo, hhi, rfl, hulo, huhi, toInt_ofInt16 v, toNat_ofInt16 v,
      ofInt16_wrap16_eq_ofInt16_uwrap16 v⟩
  case inverseSigned => rw [wrap16_uwrap16, wrap16_of_range h h']
  case inverseUnsigned => rw [uwrap16_wrap16, uwrap16_of_range h h']
  case extension => exact wrap16_eq_sext16 h h'

end Sys2Proof.Proofs
end

section
/-! The effects of an instruction read both ways (spec/60_exceptions.md R136 to R138): what `Effect` allows is what `exec` answers, so a claim about one instruction is a claim about one effect. -/

namespace Sys2Proof.Proofs

open Sys2Proof.Machine Sys2Proof.Safety Sys2Proof.Laws

theorem exec_of_branch {i : Instr} {c : Cond} {r : Reg} {addr : Int}
    (h : branch i = some (c, r, addr)) (s : State) : exec i s = branchIf c r addr s := by
  cases i <;> cases h <;> rfl

/-- The converse of `effect_of_exec`. -/
theorem exec_of_effect {i : Instr} {s t : State} (e : Effect s i t) : exec i s = .next t := by
  cases e with
  | hold r h => simp only [exec, execRead, h]
  | readBad r h => simp only [exec, execRead, h]
  | readInt r v h => simp only [exec, execRead, h]
  | load r addr h => simp only [exec, execLoad, directAddr_eq, memRead_inRange h, attempt_ok]
  | store r addr h => simp only [exec, execStore, directAddr_eq, memWrite_inRange h, attempt_ok]
  | loadi rd ra h => simp only [exec, execLoadi, indirectAddr, memRead_inRange h, attempt_ok]
  | storei rs ra h => simp only [exec, execStorei, indirectAddr, memWrite_inRange h, attempt_ok]
  | popr rd ra loaded h hl =>
    simp only [exec, execPopr, indirectAddr, memRead_inRange h, attempt_ok, hl]
  | pushn rs ra h =>
    simp only [exec, execPushn, indirectAddr, memWrite_inRange h, attempt_ok, getReg_placeWord]
  | badDirect _ addr h hi =>
    obtain ⟨r, rfl | rfl⟩ := hi
    · simp only [exec, execLoad, directAddr_eq, memRead_outOfRange h, attempt_error]
    · simp only [exec, execStore, directAddr_eq, memWrite_outOfRange h, attempt_error]
  | badAddress _ ra h hi =>
    obtain ⟨r, rfl | rfl | rfl | rfl⟩ := hi
    · simp only [exec, execLoadi, indirectAddr, memRead_outOfRange h, attempt_error]
    · simp only [exec, execStorei, indirectAddr, memWrite_outOfRange h, attempt_error]
    · simp only [exec, execPopr, indirectAddr, memRead_outOfRange h, attempt_error]
    · simp only [exec, execPushn, indirectAddr, memWrite_outOfRange h, attempt_error]
  | div rd rx ry h => simp only [exec, execDiv, divideWith, if_neg h, writeResult_eq]
  | mod rd rx ry h => simp only [exec, execMod, divideWith, if_neg h, writeResult_eq]
  | zeroDivisor _ ry h hi =>
    obtain ⟨rd, rx, rfl | rfl⟩ := hi
    · simp only [exec, execDiv, divideWith, if_pos h]
    · simp only [exec, execMod, divideWith, if_pos h]
  | taken _ c r addr h hi =>
    rw [exec_of_branch hi, branchIf, if_pos h, directAddr_eq]
  | notTaken _ c r addr h hi =>
    rw [exec_of_branch hi, branchIf, if_neg (by simp [h])]
  | _ => rfl

/-- An instruction has one effect from a state. -/
theorem eq_of_exec {i : Instr} {s t t' : State} (h : exec i s = .next t) (e : Effect s i t') :
    t = t' := by
  rw [exec_of_effect e] at h
  cases h; rfl

theorem completes_of_effect {i : Instr} {s t : State} {P : State → Prop} (e : Effect s i t)
    (h : P t) : Completes i s P := ⟨t, exec_of_effect e, h⟩

/-! ## Fault entry (R136) -/

theorem faultTaken_takeFault (f : FaultClass) (s : State) :
    FaultTaken s (takeFault f s) f s.inPos :=
  ⟨rfl, rfl, rfl, rfl, rfl, fun _ => rfl, fun _ => rfl, rfl, rfl, rfl⟩

/-- R134: the `Bad` token is consumed, and the record is still that of the state before. -/
theorem faultTaken_takeFault_takeToken (f : FaultClass) (s : State) :
    FaultTaken s (takeFault f (takeToken s)) f (s.inPos + 1) :=
  ⟨rfl, rfl, rfl, rfl, rfl, fun _ => rfl, fun _ => rfl, rfl, rfl, rfl⟩

end Sys2Proof.Proofs
end

section
/-! What one step can do under the default table (spec/60_exceptions.md R138): a fetched word always decodes, to a well-formed instruction (spec/30_encoding.md R64, R66). -/

namespace Sys2Proof.Proofs

open Sys2Proof.Machine Sys2Proof.Safety Sys2Proof.Laws

theorem nibble_12 (a b c d : BitVec 4) : nibbleAt (ofNibbles a b c d) 12 = a := by
  apply BitVec.eq_of_getLsbD_eq
  intro i hi
  simp only [nibbleAt, BitVec.getLsbD_extractLsb', getLsbD_ofNibbles, hi, decide_true,
    Bool.true_and, show ¬ 12 + i < 4 by omega, show ¬ 12 + i < 8 by omega,
    show ¬ 12 + i < 12 by omega, if_false, show 12 + i - 12 = i by omega]

/-- R64 on a word by its nibbles. -/
theorem isStray_ofNibbles (a b c d : BitVec 4) : isStray (ofNibbles a b c d) = true ↔
    (a = 0 ∧ ¬ (b = 0 ∧ c = 0 ∧ d = 0) ∧ ¬ (c = 0 ∧ d = 1) ∧ ¬ (c = 0 ∧ d = 2) ∧ d ≠ 3) ∨
    (a = 4 ∧ 4 ≤ d.toNat) := by
  have hzero : ofNibbles a b c d = 0 ↔ a = 0 ∧ b = 0 ∧ c = 0 ∧ d = 0 :=
    ofNibbles_inj (a' := 0) (b' := 0) (c' := 0) (d' := 0)
  have htop := nibble_12 a b c d
  have hmid := nibble_4 a b c d
  have hlow := nibble_0 a b c d
  unfold nibbleAt at htop hmid hlow
  simp only [isStray, htop, hmid, hlow, Bool.or_eq_true, Bool.and_eq_true, beq_iff_eq, bne_iff_ne,
    ne_eq, hzero, decide_eq_true_eq]
  grind

/-- The strays of top nibble 0 (R64 (a)): what the four rows of system instructions leave. -/
theorem isStray_of_top_zero {b c d : BitVec 4} (hhalt : ¬ (b = 0 ∧ c = 0 ∧ d = 0))
    (hread : ¬ (c = 0 ∧ d = 1)) (hwrite : ¬ (c = 0 ∧ d = 2)) (hjumpi : d ≠ 3) :
    isStray (ofNibbles 0 b c d) = true :=
  (isStray_ofNibbles 0 b c d).mpr (.inl ⟨rfl, hhalt, hread, hwrite, hjumpi⟩)

/-- The strays of top nibble 4 (R64 (b)): what the four indirect forms leave. -/
theorem isStray_of_top_four {b c d : BitVec 4} (hloadi : d ≠ 0) (hstorei : d ≠ 1)
    (hpopr : d ≠ 2) (hpushn : d ≠ 3) : isStray (ofNibbles 4 b c d) = true :=
  (isStray_ofNibbles 4 b c d).mpr (.inr ⟨rfl, by bv_omega⟩)

/-- R64, R66: the instruction of a word is well-formed: an earlier row has claimed each form that is
not, and the words no earlier row claims are the strays. -/
theorem wellFormed_byNibbles (a b c d : BitVec 4) : (byNibbles a b c d).wellFormed = true := by
  unfold byNibbles
  rcases nibble_cases a with h | h | h | h | h | h | h | h | h | h | h | h | h | h | h | h <;>
    subst h
  all_goals simp only [BitVec.ofNat_eq_ofNat, BitVec.reduceEq, if_false, if_true]
  case inl => -- top nibble 0
    split_ifs
    case neg => exact isStray_of_top_zero ‹_› ‹_› ‹_› ‹_›
    all_goals simp only [Instr.wellFormed, isAddr_toNat]
  case inr.inr.inr.inr.inl => -- top nibble 4
    split_ifs
    case neg => exact isStray_of_top_four ‹_› ‹_› ‹_› ‹_›
    all_goals rfl
  -- No stray is left; a register that is not r0 keeps each general form from an earlier row (R63).
  all_goals (repeat' split) <;> simp only [Instr.wellFormed, isAddr_toNat, isImm_toInt] <;> grind

/-- R61, R64: every word has a meaning under the default table. -/
theorem exists_decode_eq (w : Word) : ∃ i, decode w = .instr i ∧ i.wellFormed = true := by
  rw [eq_ofNibbles w, decode_ofNibbles]
  exact ⟨_, rfl, wellFormed_byNibbles _ _ _ _⟩

theorem inRange_of_fetch {s : State} {w : Word} (h : fetch s = .ok w) : inRange s.pc := by
  by_contra hpc
  rw [fetch_outOfRange hpc] at h
  cases h

/-- Everything a step can do: nothing when the machine has stopped, the bounds fault of the pc, or
the effect of the well-formed instruction fetched. -/
theorem step_cases {s t : State} (h : step s = .next t) :
    (s.run ≠ .running ∧ t = s) ∨
    (s.run = .running ∧ ¬ inRange s.pc ∧ t = takeFault (.memoryBoundsFault s.pc) s) ∨
    (s.run = .running ∧ ∃ w i, fetch s = .ok w ∧ decode w = .instr i ∧ i.wellFormed = true ∧
      Effect s i t) := by
  by_cases hrun : s.run = .running
  case neg =>
    rw [step_stopped hrun] at h
    cases h; exact .inl ⟨hrun, rfl⟩
  by_cases hpc : inRange s.pc
  case neg =>
    rw [step_fetchFault hrun (fetch_outOfRange hpc)] at h
    cases h; exact .inr (.inl ⟨hrun, hpc, rfl⟩)
  obtain ⟨i, hdecode, hwf⟩ := exists_decode_eq (s.mem.readWord s.pc.toNat)
  rw [step_runs hrun (fetch_inRange hpc) hdecode] at h
  exact .inr (.inr ⟨hrun, _, i, fetch_inRange hpc, hdecode, hwf, effect_of_exec h⟩)

theorem step_of_effect {s t : State} {w : Word} {i : Instr} (hrun : s.run = .running)
    (hfetch : fetch s = .ok w) (hdecode : decode w = .instr i) (e : Effect s i t) :
    step s = .next t := by
  rw [step_runs hrun hfetch hdecode, exec_of_effect e]

end Sys2Proof.Proofs
end

section
/-! The invariant of the machine (spec/10_state.md R16 to R23, spec/60_exceptions.md R136, R140): it holds at reset, and every step keeps it. -/

namespace Sys2Proof.Proofs

open Sys2Proof.Machine Sys2Proof.Safety Sys2Proof.Laws

/-- A machine whose instruction is being executed: the invariant holds, it is Running and the word
it executes is in memory. -/
structure Executing (s : State) : Prop where
  invariant : Invariant s
  running : s.run = .running
  pc_le : s.pc ≤ 255

/-! ## Operations within an instruction -/

/-- Nothing about a fault is recorded while Running, so an update of memory, ports and registers
has only the first five clauses to keep. -/
theorem Executing.of_sameStatus {s t : State} (h : Executing s) (hstatus : SameStatus s t)
    (hpc : t.pc = s.pc) (hmem : t.mem.wf) (hout : ∀ v ∈ t.out, -32768 ≤ v ∧ v ≤ 32767)
    (hcursor : t.inPos ≤ t.input.length) : Executing t := by
  obtain ⟨hrun, hcause, hinfo, hdump⟩ := hstatus
  have hrunning : t.run = .running := hrun.trans h.running
  have hunfaulted := h.invariant.unfaulted (by simp [h.running])
  refine ⟨⟨hmem, hpc ▸ h.invariant.pc, fun _ => hpc ▸ h.pc_le, hout, hcursor, fun _ => ?_,
    fun hf => ?_⟩, hrunning, hpc ▸ h.pc_le⟩
  · rwa [hcause, hinfo, hdump]
  · simp [hrunning] at hf

theorem sameStatus_setReg (s : State) (r : Reg) (v : Int) : SameStatus s (setReg s r v) :=
  ⟨setReg_run s r v, setReg_faultCause s r v, setReg_faultInfo s r v, setReg_dump s r v⟩

theorem Executing.setReg {s : State} (h : Executing s) (r : Reg) (v : Int) :
    Executing (setReg s r v) := by
  have hs := h.invariant
  refine h.of_sameStatus (sameStatus_setReg s r v) (setReg_pc s r v) ?_ ?_ ?_
  · rw [setReg_mem]; exact hs.memory
  · rw [setReg_out]; exact hs.output
  · rw [setReg_inPos, setReg_input]; exact hs.cursor

theorem Executing.placeWord {s : State} (h : Executing s) {a : Int} (ha : inRange a) (w : Word) :
    Executing (placeWord s a.toNat w) :=
  have hs := h.invariant
  h.of_sameStatus ⟨rfl, rfl, rfl, rfl⟩ rfl
    (wf_writeWord hs.memory (show a.toNat < 256 by omega) w) hs.output hs.cursor

theorem Executing.takeToken {s : State} (h : Executing s) {k : Token} (hk : nextToken s = some k) :
    Executing (takeToken s) :=
  have hs := h.invariant
  h.of_sameStatus ⟨rfl, rfl, rfl, rfl⟩ rfl hs.memory hs.output (List.getElem?_eq_some_iff.mp hk).1

theorem Executing.emit {s : State} (h : Executing s) {v : Int} (hv : -32768 ≤ v ∧ v ≤ 32767) :
    Executing (emit s v) :=
  have hs := h.invariant
  h.of_sameStatus ⟨rfl, rfl, rfl, rfl⟩ rfl hs.memory
    (List.forall_mem_append.mpr ⟨hs.output, List.forall_mem_singleton.mpr hv⟩) hs.cursor

/-! ## Operations that end an instruction -/

theorem Executing.invariant_jumpTo {s : State} (h : Executing s) {a : Int}
    (ha : 0 ≤ a ∧ a ≤ 256) : Invariant (jumpTo s a) :=
  have hs := h.invariant
  { memory := hs.memory
    pc := ha
    haltedPc := fun hr => by simp [h.running] at hr
    output := hs.output
    cursor := hs.cursor
    unfaulted := hs.unfaulted
    faulted := fun hr => by simp [h.running] at hr }

theorem Executing.invariant_advance {s : State} (h : Executing s) : Invariant (advance s) :=
  h.invariant_jumpTo ⟨by have := h.invariant.pc; omega, by have := h.pc_le; omega⟩

theorem Executing.invariant_haltRun {s : State} (h : Executing s) : Invariant (haltRun s) :=
  have hs := h.invariant
  { memory := hs.memory
    pc := hs.pc
    haltedPc := fun _ => h.pc_le
    output := hs.output
    cursor := hs.cursor
    unfaulted := fun _ => hs.unfaulted (by simp [h.running])
    faulted := fun hr => by simp at hr }

/-- R136: the record presented is that of the state the fault is taken in. -/
theorem invariant_takeFault {s : State} (hs : Invariant s) {f : FaultClass}
    (hf : CauseOk f.code f.info) : Invariant (takeFault f s) :=
  { memory := hs.memory
    pc := hs.pc
    haltedPc := fun hr => by simp at hr
    output := hs.output
    cursor := hs.cursor
    unfaulted := fun hr => by simp at hr
    faulted := fun _ => ⟨hf, rfl⟩ }

/-- R130: the bounds fault of an address a register or the pc can hold. -/
theorem causeOk_memoryBoundsFault {a : Int} (h : -32768 ≤ a ∧ a ≤ 32767) (ha : ¬ inRange a) :
    CauseOk (FaultClass.memoryBoundsFault a).code (FaultClass.memoryBoundsFault a).info :=
  .inr (.inl ⟨rfl, by simp only [FaultClass.info]; omega⟩)

/-! ## Instructions and steps -/

/-- R54: the target of a well-formed conditional jump is an address. -/
theorem inRange_of_branch {i : Instr} {c : Cond} {r : Reg} {addr : Int}
    (h : branch i = some (c, r, addr)) (hwf : i.wellFormed = true) : inRange addr := by
  cases i <;> cases h <;> exact of_decide_eq_true hwf

theorem invariant_of_effect {s t : State} {i : Instr} (hs : Executing s)
    (hwf : i.wellFormed = true) (e : Effect s i t) : Invariant t := by
  have hjump : ∀ {u : State} {a : Int}, Executing u → isAddr a = true → Invariant (jumpTo u a) :=
    fun hu ha => hu.invariant_jumpTo (by have := of_decide_eq_true ha; omega)
  cases e with
  | halt | data => exact hs.invariant_haltRun
  | hold => exact hs.invariant
  | readBad r h =>
    exact invariant_takeFault (hs.takeToken h).invariant (.inr (.inr ⟨.inr rfl, rfl⟩))
  | readInt r v h => exact ((hs.takeToken h).setReg r v).invariant_advance
  | write r => exact (hs.emit (getReg_range s r)).invariant_advance
  | store _ _ h | storei _ _ h => exact (hs.placeWord h _).invariant_advance
  | popr rd ra u h hu => exact hu ▸ ((hs.setReg _ _).setReg _ _).invariant_advance
  | pushn rs ra h => exact ((hs.placeWord h _).setReg _ _).invariant_advance
  | badDirect _ addr h hi =>
    obtain ⟨r, rfl | rfl⟩ := hi <;> exact absurd (of_decide_eq_true hwf) h
  | badAddress _ ra h hi =>
    exact invariant_takeFault hs.invariant (causeOk_memoryBoundsFault (getReg_range s ra) h)
  | zeroDivisor _ ry h hi => exact invariant_takeFault hs.invariant (.inr (.inr ⟨.inl rfl, rfl⟩))
  | jumpi | jump => exact hjump hs hwf
  | call r addr => exact hjump (hs.setReg _ _) (Bool.and_eq_true_iff.mp hwf).2
  | taken _ c r addr h hi =>
    have := inRange_of_branch hi hwf
    exact hs.invariant_jumpTo (by omega)
  | nop | notTaken => exact hs.invariant_advance
  | _ => exact (hs.setReg _ _).invariant_advance

/-- Settles O25: a stopped machine is unchanged, a fetch past memory takes the fault of pc 256, and
a fetched instruction keeps the invariant whatever its effect. -/
theorem everyStepKeepsTheInvariant : Obligations.EveryStepKeepsTheInvariant := by
  unfold Obligations.EveryStepKeepsTheInvariant
  intro s t hs hstep
  obtain ⟨-, rfl⟩ | ⟨-, hpc, rfl⟩ | ⟨hrun, w, i, hfetch, -, hwf, e⟩ := step_cases hstep
  · exact hs
  · have := hs.pc
    exact invariant_takeFault hs (causeOk_memoryBoundsFault (by omega) hpc)
  · exact invariant_of_effect ⟨hs, hrun, (inRange_of_fetch hfetch).2⟩ hwf e

/-- Settles O24, clause by clause from the values of R28. -/
theorem invariantHoldsAtReset : Obligations.InvariantHoldsAtReset :=
  { memory := wf_nil
    pc := by decide
    haltedPc := fun h => by cases h
    output := fun v hv => by cases hv
    cursor := Nat.le_refl _
    unfaulted := fun _ => ⟨rfl, rfl, rfl⟩
    faulted := fun h => by cases h }

theorem readWord_nil (a : Nat) : Memory.readWord [] a = 0 := by
  simp only [Memory.readWord, Memory.readByte, Memory.unlisted]; rfl

/-- Settles O27: the values of R28, with nothing listed in memory. -/
theorem resetStartsRunningAtZero : Obligations.ResetStartsRunningAtZero := by
  unfold Obligations.ResetStartsRunningAtZero
  exact ⟨rfl, rfl, getReg_zero _, readWord_nil⟩

end Sys2Proof.Proofs
end

section
/-! The register file (spec/10_state.md R11, R12): what r0 makes of the instructions that read or write it. -/

namespace Sys2Proof.Proofs

open Sys2Proof.Machine Sys2Proof.Safety Sys2Proof.Laws

theorem getReg_setReg_same {s : State} {r : Reg} (h : r ≠ 0) (v : Int) :
    getReg (setReg s r v) r = wrap16 v := by
  rw [getReg_setReg, if_pos ⟨rfl, h⟩]

/-- R11: an address in r0 is address 0. -/
theorem inRange_getReg_zero (s : State) : inRange (getReg s 0) := by
  rw [show getReg s 0 = 0 from getReg_zero s]; decide

/-- R106, R107: a zero divisor faults. -/
theorem completes_zeroDivisor {s : State} {rd rx ry : Reg} (h : getReg s ry = 0) {i : Instr}
    (hi : i = .div rd rx ry ∨ i = .mod rd rx ry) : Completes i s fun t => t.run = .faulted :=
  completes_of_effect (.zeroDivisor i ry h ⟨rd, rx, hi⟩) rfl

/-- Settles O2: the four instructions with a source in r0, each by its effect. -/
theorem registerReadSeesZeroInR0 : Obligations.RegisterReadSeesZeroInR0 := by
  unfold Obligations.RegisterReadSeesZeroInR0
  intro s
  have hzero : getReg s 0 = 0 := getReg_zero s
  refine ⟨hzero, fun i hi => ⟨if_neg hi, getReg_range s i⟩, ?write, fun addr => ?jeqz,
    fun rd hrd => ?loadi, fun rd rx => completes_zeroDivisor hzero (.inl rfl)⟩
  case write => exact completes_of_effect (.write 0) (by simp)
  case jeqz =>
    exact completes_of_effect (.taken _ .eqz 0 addr (by simp [Cond.holds]) rfl) rfl
  case loadi =>
    refine completes_of_effect (.loadi rd 0 (inRange_getReg_zero s)) ?_
    rw [getReg_advance, getReg_setReg_same hrd, hzero]; rfl

/-- R12: a register write leaves that register alone changed. -/
theorem writesReg_setReg (s : State) (r : Reg) (v : Int) : WritesReg s (setReg s r v) r v :=
  fun q => getReg_setReg s r q v

theorem sameMemory_setReg (s : State) (r : Reg) (v : Int) : SameMemory s (setReg s r v) :=
  fun a => by rw [setReg_mem]

theorem samePorts_setReg (s : State) (r : Reg) (v : Int) : SamePorts s (setReg s r v) :=
  ⟨setReg_input s r v, setReg_inPos s r v, setReg_out s r v⟩

/-- Settles O3: each clause is the effect of its instruction, seen through the register write. -/
theorem registerWriteWrapsAndR0Swallows : Obligations.RegisterWriteWrapsAndR0Swallows := by
  unfold Obligations.RegisterWriteWrapsAndR0Swallows
  refine ⟨setReg_zero, fun s i v hi => ?write, fun _ _ t _ => getReg_zero t,
    fun s r addr hr => ⟨fun ha => ?load, ?call, fun v hv => ?read⟩, fun s v hv => ?token,
    fun s ra ha => ⟨?loadiFault, ?poprFault⟩, fun s rs => ⟨?pushn, ?popr⟩,
    fun s rx ry h => ⟨completes_zeroDivisor h (.inl rfl), completes_zeroDivisor h (.inr rfl)⟩,
    fun s addr => completes_of_effect (.call 0 addr) rfl⟩
  case write =>
    exact ⟨writesReg_setReg s i v, getReg_setReg_same hi v, setReg_pc s i v,
      sameMemory_setReg s i v, samePorts_setReg s i v, sameStatus_setReg s i v⟩
  case load => exact completes_of_effect (.load r addr ha) (getReg_setReg_same hr _)
  case call => exact completes_of_effect (.call r addr) (getReg_setReg_same hr _)
  case read => exact completes_of_effect (.readInt r v hv) (getReg_setReg_same hr v)
  case token => exact completes_of_effect (.readInt 0 v hv) (by simp)
  case loadiFault =>
    exact completes_of_effect (.badAddress _ ra ha ⟨0, .inl rfl⟩) rfl
  case poprFault =>
    exact completes_of_effect (.badAddress _ ra ha ⟨0, .inr (.inr (.inl rfl))⟩) rfl
  case pushn =>
    refine completes_of_effect (.pushn rs 0 (inRange_getReg_zero s)) ⟨?_, by simp⟩
    rw [advance_mem, setReg_mem, readWord_placeWord, if_pos (by simp), toNat_storedValue]
  case popr =>
    exact completes_of_effect (.popr rs 0 _ (inRange_getReg_zero s) rfl) ⟨by simp, by simp⟩

end Sys2Proof.Proofs
end

section
/-! How each instruction leaves the pc (spec/10_state.md R15), and the steps that fetch nothing (R16, R17). -/

namespace Sys2Proof.Proofs

open Sys2Proof.Machine Sys2Proof.Safety Sys2Proof.Laws

/-- R123 to R126 for the pc. -/
theorem pc_of_branch {i : Instr} {c : Cond} {r : Reg} {addr : Int} {s t : State}
    (hi : branch i = some (c, r, addr)) (h : exec i s = .next t) :
    t.pc = if c.holds (getReg s r) then addr else s.pc + 1 := by
  split
  · next hc => rw [eq_of_exec h (.taken i c r addr hc hi)]; rfl
  · next hc => rw [eq_of_exec h (.notTaken i c r addr (eq_false_of_ne_true hc) hi)]; rfl

/-- R137: an instruction that faults leaves the pc at its own address. -/
theorem pc_of_effect_faulted {i : Instr} {s t : State} (hrun : s.run = .running)
    (e : Effect s i t) (ht : t.run = .faulted) : t.pc = s.pc := by
  cases e with
  | readBad | badDirect | badAddress | zeroDivisor | halt | data | hold => rfl
  | popr _ _ _ _ hu => simp [hu, hrun] at ht
  | _ => simp [hrun] at ht

/-- R15, last sentence: what goes on without a jump goes on to the next word, but for a held
`read`. -/
theorem pc_of_effect_running {i : Instr} {s t : State} (e : Effect s i t) (ht : t.run = .running)
    (hi : i.mnemonic ∉ [.jumpi, .jump, .call, .jeqz, .jgtz, .jltz, .jnez]) :
    t.pc = s.pc + 1 ∨ ∃ r, i = .read r ∧ nextToken s = none ∧ t = s := by
  cases e with
  | hold r h => exact .inr ⟨r, rfl, h, rfl⟩
  | halt | data | readBad | badDirect | badAddress | zeroDivisor => cases ht
  | jumpi | jump | call => simp [Instr.mnemonic] at hi
  | taken _ c r addr h hb => cases i <;> cases hb <;> simp [Instr.mnemonic] at hi
  | popr _ _ _ _ hu => exact .inl (by simp [hu])
  | _ => exact .inl (by simp)

/-- Settles O29: an effect fixes the pc it leaves; the last two clauses go through the effects. -/
theorem pcRuleOfEveryInstruction : Obligations.PcRuleOfEveryInstruction := by
  unfold Obligations.PcRuleOfEveryInstruction
  intro s t
  refine ⟨fun h => ?halt, fun w h => ?data, fun addr h => ?jump, fun r addr h => ?call,
    fun r addr h => ?jeqz, fun r addr h => ?jgtz, fun r addr h => ?jltz, fun r addr h => ?jnez,
    fun i hrun h => pc_of_effect_faulted hrun (effect_of_exec h),
    fun i _ h => pc_of_effect_running (effect_of_exec h)⟩
  case halt => rw [eq_of_exec h .halt]; rfl
  case data => rw [eq_of_exec h (.data w)]; rfl
  case jump =>
    obtain h | h := h
    · rw [eq_of_exec h (.jumpi addr)]; rfl
    · rw [eq_of_exec h (.jump addr)]; rfl
  case call => rw [eq_of_exec h (.call r addr)]; rfl
  case jeqz => simpa [Cond.holds] using pc_of_branch rfl h
  case jgtz => simpa [Cond.holds] using pc_of_branch rfl h
  case jltz => simpa [Cond.holds] using pc_of_branch rfl h
  case jnez => simpa [Cond.holds] using pc_of_branch rfl h

/-- Settles O19: the fetch is a read at the pc, which is out of range. -/
theorem fetchPastMemoryFaults : Obligations.FetchPastMemoryFaults := by
  unfold Obligations.FetchPastMemoryFaults
  intro s hrun hpc
  have hout : ¬ inRange s.pc := by omega
  exact ⟨_, step_fetchFault hrun (fetch_outOfRange hout), faultTaken_takeFault _ s⟩

/-- Settles O20: only a running machine fetches. -/
theorem stoppedMachineStaysAsItIs : Obligations.StoppedMachineStaysAsItIs := by
  unfold Obligations.StoppedMachineStaysAsItIs
  intro s h
  apply step_stopped
  obtain h | h := h <;> simp [h]

end Sys2Proof.Proofs
end

section
/-! Which instructions write memory (spec/10_state.md R20; `popr` does not, spec/90_conflicts.md C3). -/

namespace Sys2Proof.Proofs

open Sys2Proof.Machine Sys2Proof.Safety Sys2Proof.Laws

theorem mem_of_effect {i : Instr} {s t : State} (e : Effect s i t) :
    t.mem = s.mem ∨
    ∃ r, (∃ addr, i = .store r addr) ∨ (∃ ra, i = .storei r ra) ∨ ∃ ra, i = .pushn r ra := by
  cases e with
  | store r addr => exact .inr ⟨r, .inl ⟨addr, rfl⟩⟩
  | storei r ra => exact .inr ⟨r, .inr (.inl ⟨ra, rfl⟩)⟩
  | pushn r ra => exact .inr ⟨r, .inr (.inr ⟨ra, rfl⟩)⟩
  | popr _ _ _ _ hu => exact .inl (by simp [hu])
  | _ => exact .inl (by simp)

/-- Settles O32: a step that fetches nothing leaves memory, and so does every instruction but the
three. -/
theorem onlyStoresChangeMemory : Obligations.OnlyStoresChangeMemory := by
  unfold Obligations.OnlyStoresChangeMemory
  intro s t hstep hchanged
  have hmem : t.mem ≠ s.mem := fun h => hchanged fun a => by rw [h]
  obtain ⟨-, rfl⟩ | ⟨-, -, rfl⟩ | ⟨-, w, i, hfetch, hdecode, -, e⟩ := step_cases hstep
  · exact absurd rfl hmem
  · exact absurd rfl hmem
  · obtain ⟨r, hi⟩ := (mem_of_effect e).resolve_left hmem
    refine ⟨w, r, hfetch, ?_⟩
    obtain ⟨addr, rfl⟩ | ⟨ra, rfl⟩ | ⟨ra, rfl⟩ := hi
    · exact .inl ⟨addr, hdecode⟩
    · exact .inr (.inl ⟨ra, hdecode⟩)
    · exact .inr (.inr ⟨ra, hdecode⟩)

end Sys2Proof.Proofs
end

section
/-! What no step reads (spec/10_state.md R22, R27; spec/60_exceptions.md R143, R144): the output history, the fault registers, the dump port, and the input but for the token a `read` takes. -/

namespace Sys2Proof.Proofs

open Sys2Proof.Machine Sys2Proof.Safety Sys2Proof.Laws

/-- The part of the state that a fault entry writes. -/
structure FaultPort where
  cause : Nat
  info : Int
  dump : Option DumpRecord

/-- The part of the state no step reads, but for the token at the cursor. -/
structure Unseen where
  input : List Token
  out : List Int
  port : FaultPort

/-- What the fault registers and the dump port of a machine hold. -/
def faultPort (s : State) : FaultPort := ⟨s.faultCause, s.faultInfo, s.dump⟩

/-- The unseen part of a machine. -/
def unseen (s : State) : Unseen := ⟨s.input, s.out, faultPort s⟩

/-- `s` with its unseen part replaced. -/
def withUnseen (s : State) (u : Unseen) : State :=
  { s with
    input := u.input, out := u.out,
    faultCause := u.port.cause, faultInfo := u.port.info, dump := u.port.dump }

theorem supply_eq_withUnseen (s : State) (ts : List Token) :
    s.supply ts = withUnseen s { unseen s with input := s.input ++ ts } := rfl

@[simp] theorem getReg_withUnseen (s : State) (u : Unseen) (q : Reg) :
    getReg (withUnseen s u) q = getReg s q := rfl

@[simp] theorem withUnseen_pc (s : State) (u : Unseen) : (withUnseen s u).pc = s.pc := rfl

@[simp] theorem withUnseen_mem (s : State) (u : Unseen) : (withUnseen s u).mem = s.mem := rfl

@[simp] theorem storedValue_withUnseen (s : State) (u : Unseen) (r : Reg) :
    storedValue (withUnseen s u) r = storedValue s r := rfl

/-! ### Each operation acts beside the unseen part -/

@[simp] theorem advance_withUnseen (s : State) (u : Unseen) :
    advance (withUnseen s u) = withUnseen (advance s) u := rfl

@[simp] theorem jumpTo_withUnseen (s : State) (u : Unseen) (a : Int) :
    jumpTo (withUnseen s u) a = withUnseen (jumpTo s a) u := rfl

@[simp] theorem placeWord_withUnseen (s : State) (u : Unseen) (a : Nat) (w : Word) :
    placeWord (withUnseen s u) a w = withUnseen (placeWord s a w) u := rfl

@[simp] theorem takeToken_withUnseen (s : State) (u : Unseen) :
    takeToken (withUnseen s u) = withUnseen (takeToken s) u := rfl

@[simp] theorem setReg_withUnseen (s : State) (u : Unseen) (r : Reg) (v : Int) :
    setReg (withUnseen s u) r v = withUnseen (setReg s r v) u := by
  unfold setReg
  split <;> rfl

/-- R136: a fault entry writes its port whatever was there. -/
theorem takeFault_withUnseen (f : FaultClass) (s : State) (u : Unseen) :
    takeFault f (withUnseen s u) =
      withUnseen (takeFault f s) { u with port := faultPort (takeFault f s) } := rfl

@[simp] theorem unseen_advance (s : State) : unseen (advance s) = unseen s := rfl

@[simp] theorem unseen_jumpTo (s : State) (a : Int) : unseen (jumpTo s a) = unseen s := rfl

@[simp] theorem unseen_placeWord (s : State) (a : Nat) (w : Word) :
    unseen (placeWord s a w) = unseen s := rfl

@[simp] theorem unseen_takeToken (s : State) : unseen (takeToken s) = unseen s := rfl

@[simp] theorem unseen_setReg (s : State) (r : Reg) (v : Int) :
    unseen (setReg s r v) = unseen s := by
  simp only [unseen, faultPort, setReg_input, setReg_out, setReg_faultCause, setReg_faultInfo,
    setReg_dump]

/-! ### Two runs that differ in the unseen part -/

/-- How the unseen part goes from `u` to `u'` beside a step from `s` to `t`: the same values are
emitted, and a fault entry writes the same, where any other step writes nothing. -/
structure Follows (s t : State) (u u' : Unseen) : Prop where
  input : t.input = s.input ∧ u'.input = u.input
  out : ∃ new, t.out = s.out ++ new ∧ u'.out = u.out ++ new
  faulted : s.run = .running ∧ t.run = .faulted → u'.port = faultPort t
  unfaulted : ¬ (s.run = .running ∧ t.run = .faulted) → faultPort t = faultPort s ∧ u'.port = u.port

/-- A step that takes no fault and emits nothing leaves the unseen part. -/
theorem follows_of_unseen_eq {s t : State} (h : unseen t = unseen s)
    (hrun : ¬ (s.run = .running ∧ t.run = .faulted)) (u : Unseen) : Follows s t u u := by
  obtain ⟨hin, hout, hport⟩ := Unseen.mk.inj h
  exact ⟨⟨hin, rfl⟩, ⟨[], by rw [hout, List.append_nil], (List.append_nil _).symm⟩,
    fun hf => absurd hf hrun, fun _ => ⟨hport, rfl⟩⟩

/-- R136: the one step that writes the unseen part whatever it was. -/
theorem follows_takeFault {s t : State} (h : unseen t = unseen s) (hrun : s.run = .running)
    (f : FaultClass) (u : Unseen) :
    Follows s (takeFault f t) u { u with port := faultPort (takeFault f t) } := by
  obtain ⟨hin, hout, -⟩ := Unseen.mk.inj h
  exact ⟨⟨hin, rfl⟩, ⟨[], by rw [takeFault_out, hout, List.append_nil], (List.append_nil _).symm⟩,
    fun _ => rfl, fun hf => absurd ⟨hrun, rfl⟩ hf⟩

/-- The instruction that leads from `s` to `t` leads to `t` beside another unseen part too. -/
def RunsAlike (i : Instr) (s t : State) (u : Unseen) : Prop :=
  ∃ u', Effect (withUnseen s u) i (withUnseen t u') ∧ Follows s t u u'

theorem runsAlike_of_unseen_eq {i : Instr} {s t : State} {u : Unseen}
    (e : Effect (withUnseen s u) i (withUnseen t u)) (h : unseen t = unseen s)
    (hrun : t.run ≠ .faulted) : RunsAlike i s t u :=
  ⟨u, e, follows_of_unseen_eq h (fun hf => hrun hf.2) u⟩

theorem runsAlike_setReg {i : Instr} {s : State} {u : Unseen} {r : Reg} {v : Int}
    (hrun : s.run = .running)
    (e : Effect (withUnseen s u) i (advance (setReg (withUnseen s u) r v))) :
    RunsAlike i s (advance (setReg s r v)) u :=
  runsAlike_of_unseen_eq (by simpa using e) (by simp) (by simp [hrun])

theorem runsAlike_takeFault {i : Instr} {s t : State} {u : Unseen} {f : FaultClass}
    (hrun : s.run = .running) (h : unseen t = unseen s)
    (e : Effect (withUnseen s u) i (takeFault f (withUnseen t u))) :
    RunsAlike i s (takeFault f t) u :=
  ⟨_, takeFault_withUnseen f t u ▸ e, follows_takeFault h hrun f u⟩

/-- R27, R144: an instruction has the same effect beside any unseen part, as long as a `read` finds
the same token. -/
theorem runsAlike_of_effect {i : Instr} {s t : State} {u : Unseen} (hrun : s.run = .running)
    (htoken : ∀ r, i = .read r → nextToken (withUnseen s u) = nextToken s) (e : Effect s i t) :
    RunsAlike i s t u := by
  have hnofault : s.run ≠ .faulted := by simp [hrun]
  cases e with
  | halt => exact runsAlike_of_unseen_eq .halt rfl (by simp)
  | data w => exact runsAlike_of_unseen_eq (.data w) rfl (by simp)
  | nop => exact runsAlike_of_unseen_eq .nop rfl hnofault
  | hold r h => exact runsAlike_of_unseen_eq (.hold r ((htoken r rfl).trans h)) rfl hnofault
  | readBad r h => exact runsAlike_takeFault hrun rfl (.readBad r ((htoken r rfl).trans h))
  | readInt r v h =>
    have e' := Effect.readInt r v ((htoken r rfl).trans h)
    exact runsAlike_of_unseen_eq (by simpa using e') (by simp) (by simp [hrun])
  | write r =>
    exact ⟨{ u with out := u.out ++ [getReg s r] }, .write r, ⟨rfl, rfl⟩, ⟨_, rfl, rfl⟩,
      fun hf => absurd hf.2 hnofault, fun _ => ⟨rfl, rfl⟩⟩
  | loadn r n => exact runsAlike_setReg hrun (.loadn r n)
  | load r addr h => exact runsAlike_setReg hrun (.load r addr h)
  | store r addr h => exact runsAlike_of_unseen_eq (.store r addr h) rfl hnofault
  | loadi rd ra h => exact runsAlike_setReg hrun (.loadi rd ra h)
  | storei rs ra h => exact runsAlike_of_unseen_eq (.storei rs ra h) rfl hnofault
  | popr rd ra loaded h hl =>
    have e' := Effect.popr (s := withUnseen s u) rd ra _ h rfl
    subst hl
    exact runsAlike_of_unseen_eq (by simpa using e') (by simp) (by simp [hrun])
  | pushn rs ra h =>
    have e' := Effect.pushn (s := withUnseen s u) rs ra h
    exact runsAlike_of_unseen_eq (by simpa using e') (by simp) (by simp [hrun])
  | badDirect _ addr h hi => exact runsAlike_takeFault hrun rfl (.badDirect i addr h hi)
  | badAddress _ ra h hi =>
    exact runsAlike_takeFault hrun rfl (Effect.badAddress (s := withUnseen s u) i ra h hi)
  | zeroDivisor _ ry h hi =>
    exact runsAlike_takeFault hrun rfl (Effect.zeroDivisor (s := withUnseen s u) i ry h hi)
  | addn r n => exact runsAlike_setReg hrun (.addn r n)
  | mov rd rx => exact runsAlike_setReg hrun (.mov rd rx)
  | add rd rx ry => exact runsAlike_setReg hrun (.add rd rx ry)
  | neg rd rx => exact runsAlike_setReg hrun (.neg rd rx)
  | sub rd rx ry => exact runsAlike_setReg hrun (.sub rd rx ry)
  | mul rd rx ry => exact runsAlike_setReg hrun (.mul rd rx ry)
  | div rd rx ry h => exact runsAlike_setReg hrun (.div rd rx ry h)
  | mod rd rx ry h => exact runsAlike_setReg hrun (.mod rd rx ry h)
  | jumpi addr => exact runsAlike_of_unseen_eq (.jumpi addr) rfl hnofault
  | jump addr => exact runsAlike_of_unseen_eq (.jump addr) rfl hnofault
  | call r addr =>
    have e' := Effect.call (s := withUnseen s u) r addr
    exact runsAlike_of_unseen_eq (by simpa using e') (by simp) (by simp [hrun])
  | taken _ c r addr h hi => exact runsAlike_of_unseen_eq (.taken i c r addr h hi) rfl hnofault
  | notTaken _ c r addr h hi =>
    exact runsAlike_of_unseen_eq (.notTaken i c r addr h hi) rfl hnofault

/-- The same for a step. -/
theorem step_withUnseen {s t : State} {u : Unseen} (h : step s = .next t)
    (htoken : ∀ w r, s.run = .running → fetch s = .ok w → decode w = .instr (.read r) →
      nextToken (withUnseen s u) = nextToken s) :
    ∃ u', step (withUnseen s u) = .next (withUnseen t u') ∧ Follows s t u u' := by
  obtain ⟨hrun, rfl⟩ | ⟨hrun, hpc, rfl⟩ | ⟨hrun, w, i, hfetch, hdecode, -, e⟩ := step_cases h
  · exact ⟨u, step_stopped hrun, follows_of_unseen_eq rfl (fun hf => hrun hf.1) u⟩
  · refine ⟨_, ?_, follows_takeFault rfl hrun (.memoryBoundsFault s.pc) u⟩
    rw [← takeFault_withUnseen]
    exact step_fetchFault (s := withUnseen s u) hrun (fetch_outOfRange hpc)
  · obtain ⟨u', e', hfollows⟩ :=
      runsAlike_of_effect hrun (fun r hi => htoken w r hrun hfetch (hi ▸ hdecode)) e
    exact ⟨u', step_of_effect hrun hfetch hdecode e', hfollows⟩

/-- Settles O33: the other machine is this one beside another unseen part with the same input. -/
theorem stepsCannotReadOutputOrFaultRegisters :
    Obligations.StepsCannotReadOutputOrFaultRegisters := by
  unfold Obligations.StepsCannotReadOutputOrFaultRegisters
  intro s t o cause info d h
  obtain ⟨u', h', hfollows⟩ :=
    step_withUnseen (u := ⟨s.input, o, cause, info, d⟩) h (fun _ _ _ _ _ => rfl)
  obtain ⟨hin, hin'⟩ := hfollows.input
  obtain ⟨new, hout, hout'⟩ := hfollows.out
  refine ⟨withUnseen t u', new, h', hout, hout', rfl, rfl, rfl, rfl, hin'.trans hin.symm, rfl,
    fun hf => ?_, fun hf => ?_⟩
  · exact FaultPort.mk.inj (hfollows.faulted hf)
  · obtain ⟨hport, hport'⟩ := hfollows.unfaulted hf
    exact ⟨FaultPort.mk.inj hport, FaultPort.mk.inj hport'⟩

/-- R22: a token that is there is the same after further ones are supplied. -/
theorem nextToken_supply {s : State} {k : Token} (h : nextToken s = some k) (ts : List Token) :
    nextToken (s.supply ts) = some k := by
  obtain ⟨hlt, -⟩ := List.getElem?_eq_some_iff.mp h
  exact (List.getElem?_append_left hlt).trans h

/-- Settles O34: the supplied machine is this one beside another input, and a `read` that does not
hold finds its token there. -/
theorem supplyingTokensCommutesWithSteps : Obligations.SupplyingTokensCommutesWithSteps := by
  unfold Obligations.SupplyingTokensCommutesWithSteps
  intro s t ts hholds h
  obtain ⟨⟨input, out, port⟩, h', hfollows⟩ :=
    step_withUnseen (u := { unseen s with input := s.input ++ ts }) h
    fun w r hrun hfetch hdecode => by
      cases hk : nextToken s with
      | none => exact absurd ⟨hrun, w, r, hfetch, hdecode, hk⟩ hholds
      | some k => exact nextToken_supply hk ts
  have hin : input = t.input ++ ts := by rw [hfollows.input.1]; exact hfollows.input.2
  have hout : out = t.out := by
    obtain ⟨new, ht, hu⟩ := hfollows.out
    exact hu.trans ht.symm
  have hport : port = faultPort t := by
    by_cases hf : s.run = .running ∧ t.run = .faulted
    · exact hfollows.faulted hf
    · obtain ⟨ht, hu⟩ := hfollows.unfaulted hf
      exact hu.trans ht.symm
  rw [supply_eq_withUnseen, h', supply_eq_withUnseen, hin, hout, hport]
  rfl

/-- R22: the token a waiting machine is supplied is the one it finds. -/
theorem nextToken_supply_singleton {s : State} (h : s.inPos = s.input.length) (k : Token) :
    nextToken (s.supply [k]) = some k := by
  simp [nextToken, h]

/-- Settles O35: the token supplied turns the effect of the `read` from a hold into one of the other
two. -/
theorem holdIsLiftedBySupplyingAToken : Obligations.HoldIsLiftedBySupplyingAToken := by
  unfold Obligations.HoldIsLiftedBySupplyingAToken
  rintro s ⟨hrun, w, r, hfetch, hdecode, hnone⟩
  have hstep : ∀ {k t}, Effect (s.supply [k]) (.read r) t → step (s.supply [k]) = .next t :=
    step_of_effect hrun hfetch hdecode
  refine ⟨step_of_effect hrun hfetch hdecode (.hold r hnone), fun hpos => ⟨fun v => ?_, ?_⟩⟩
  · exact ⟨_, hstep (.readInt r v (nextToken_supply_singleton hpos _)),
      by simp [hrun], by simp, by simp⟩
  · exact ⟨_, hstep (.readBad r (nextToken_supply_singleton hpos _)),
      faultTaken_takeFault_takeToken .inputFault (s.supply [.bad])⟩

end Sys2Proof.Proofs
end

section
/-! The memory primitives (spec/20_memory.md R32, R33): what a word is to a load, what a store leaves in its place, and what the next fetch reads there (R42, R44). -/

namespace Sys2Proof.Proofs

open Sys2Proof.Machine Sys2Proof.Safety Sys2Proof.Laws

theorem completes_imp {i : Instr} {s : State} {P Q : State → Prop} (h : Completes i s P)
    (hPQ : ∀ t, P t → Q t) : Completes i s Q := by
  obtain ⟨t, hexec, ht⟩ := h
  exact ⟨t, hexec, hPQ t ht⟩

theorem not_inRange_iff {a : Int} : ¬ inRange a ↔ a < 0 ∨ 255 < a := by omega

/-! ## Loads -/

/-- R32: a word of the upper half reads as negative in a register. -/
theorem wrap16_loadedValue_of_ge {w : Word} (h : 32768 ≤ w.toNat) :
    wrap16 (loadedValue w) = w.toNat - 65536 := by
  have hlt : w.toNat < 65536 := w.isLt
  calc wrap16 w.toNat
      = sext 16 w.toNat := wrap16_eq_sext16 (by omega) (by omega)
    _ = w.toNat - 2 ^ 16 := sext_of_not_lt (by omega)

theorem getReg_setReg_loadedValue_of_ge (s : State) {r : Reg} (hr : r ≠ 0) {w : Word}
    (h : 32768 ≤ w.toNat) : getReg (setReg s r (loadedValue w)) r = w.toNat - 65536 := by
  rw [getReg_setReg_same hr, wrap16_loadedValue_of_ge h]

theorem getReg_setReg_of_ne {s : State} {r q : Reg} (h : q ≠ r) (v : Int) :
    getReg (setReg s r v) q = getReg s q := by
  rw [getReg_setReg, if_neg fun hq => h hq.1]

/-- Settles O4: the three loads write the word through the wrap, and the decrement of `popr` is of
another register. -/
theorem memReadInRangeOrFaults : Obligations.MemReadInRangeOrFaults := by
  unfold Obligations.MemReadInRangeOrFaults
  refine ⟨fun s a h h' => ⟨memRead_inRange ⟨h, h'⟩, ?word⟩,
    fun s a h => memRead_outOfRange (not_inRange_iff.mpr h), fun s r addr hr ha h => ?load,
    fun s rd ra hrd ha h => ⟨?loadi, fun hne => ?popr⟩⟩
  case word => exact Nat.le_of_lt_succ (s.mem.readWord a.toNat).isLt
  case load =>
    exact completes_of_effect (.load r addr ha) (getReg_setReg_loadedValue_of_ge s hr h)
  case loadi =>
    exact completes_of_effect (.loadi rd ra ha) (getReg_setReg_loadedValue_of_ge s hrd h)
  case popr =>
    refine completes_of_effect (.popr rd ra _ ha rfl) ?_
    rw [getReg_advance, getReg_setReg_of_ne hne, getReg_setReg_loadedValue_of_ge s hrd h]

/-! ## Stores -/

/-- R33: a word write changes its two cells and nothing else. -/
theorem storesWord_placeWord (s : State) (a : Nat) {v : Int} (h : 0 ≤ v) (h' : v ≤ 65535) :
    StoresWord s (placeWord s a (BitVec.ofInt 16 v)) a v := by
  refine ⟨?_, fun b => readByte_writeWord_of_ne s.mem a b _⟩
  rw [readWord_placeWord, if_pos rfl, toNat_ofInt16, uwrap16_of_range h h']

/-- What `store`, `storei` and `pushn` have in common: the stored value of `r` is put at the address
`a` and the machine goes on to the next word. -/
structure PutsRegAt (s : State) (r : Reg) (a : Int) (t : State) : Prop where
  mem : t.mem = s.mem.writeWord a.toNat (BitVec.ofInt 16 (storedValue s r))
  pc : t.pc = s.pc + 1

theorem completes_store {s : State} {addr : Int} (h : inRange addr) (r : Reg) :
    Completes (.store r addr) s (PutsRegAt s r addr) :=
  completes_of_effect (.store r addr h) ⟨rfl, rfl⟩

theorem completes_storei {s : State} {ra : Reg} (h : inRange (getReg s ra)) (rs : Reg) :
    Completes (.storei rs ra) s (PutsRegAt s rs (getReg s ra)) :=
  completes_of_effect (.storei rs ra h) ⟨rfl, rfl⟩

/-- The increment of `pushn` comes after the store and leaves memory alone. -/
theorem completes_pushn {s : State} {ra : Reg} (h : inRange (getReg s ra)) (rs : Reg) :
    Completes (.pushn rs ra) s (PutsRegAt s rs (getReg s ra)) :=
  completes_of_effect (.pushn rs ra h) ⟨by simp, by simp⟩

theorem PutsRegAt.readWord {s t : State} {r : Reg} {a : Int} (h : PutsRegAt s r a t) :
    t.mem.readWord a.toNat = BitVec.ofInt 16 (storedValue s r) := by
  rw [h.mem, readWord_writeWord, if_pos rfl]

/-- R33: memory holds the unsigned reading of the register. -/
theorem PutsRegAt.toNat_readWord {s t : State} {r : Reg} {a : Int} (h : PutsRegAt s r a t) :
    ((t.mem.readWord a.toNat).toNat : Int) = uwrap16 (getReg s r) := by
  rw [h.readWord, toNat_storedValue]

/-- R33: a load at the address brings back the signed value, since the two wraps undo each other. -/
theorem PutsRegAt.completes_load {s t : State} {r : Reg} {a : Int} (h : PutsRegAt s r a t)
    (ha : inRange a) {r2 : Reg} (hr2 : r2 ≠ 0) :
    Completes (.load r2 a) t fun u => getReg u r2 = getReg s r := by
  refine completes_of_effect (.load r2 a ha) ?_
  calc getReg (setReg t r2 (t.mem.readWord a.toNat).toNat) r2
      = wrap16 (t.mem.readWord a.toNat).toNat := getReg_setReg_same hr2 _
    _ = wrap16 (uwrap16 (getReg s r)) := by rw [h.toNat_readWord]
    _ = getReg s r := by rw [wrap16_uwrap16, wrap16_getReg]

/-- Settles O5: the write is `placeWord`, and each storing instruction puts its register at its
address. -/
theorem memWriteThenReadRoundTrip : Obligations.MemWriteThenReadRoundTrip := by
  unfold Obligations.MemWriteThenReadRoundTrip
  refine ⟨fun s a v h h' hv hv' => ?write,
    fun s a v h => memWrite_outOfRange (not_inRange_iff.mpr h), fun s r r2 addr hr2 ha => ?store,
    fun s rs ra ha => ⟨completes_imp (completes_storei ha rs) fun t ht => ht.toNat_readWord,
      completes_imp (completes_pushn ha rs) fun t ht => ht.toNat_readWord⟩⟩
  case write =>
    refine ⟨_, memWrite_inRange ⟨h, h'⟩, storesWord_placeWord s a.toNat hv hv', fun b hb => ?_,
      rfl, fun _ => rfl, ⟨rfl, rfl, rfl⟩, ⟨rfl, rfl, rfl, rfl⟩⟩
    rw [readWord_placeWord, if_neg hb]
  case store =>
    exact completes_imp (completes_store ha r) fun t ht =>
      ⟨ht.toNat_readWord, ht.completes_load ha hr2⟩

/-! ## Fetches -/

/-- R44: a fetch with the pc at the address reads the word put there. -/
theorem PutsRegAt.fetch_eq {s t u : State} {r : Reg} {a : Int} (h : PutsRegAt s r a t)
    (ha : inRange a) (hmem : u.mem = t.mem) (hpc : u.pc = a) :
    fetch u = .ok (BitVec.ofInt 16 (storedValue s r)) := by
  rw [fetch_inRange (hpc ▸ ha), hmem, hpc, h.readWord]

/-- R44: the word put at an address is fetched by a jump there, and by the very next fetch where the
address is that of the next word. -/
theorem PutsRegAt.exists_fetch_eq {s t : State} {r : Reg} {a : Int} (h : PutsRegAt s r a t)
    (ha : inRange a) :
    ∃ w : Word, (w.toNat : Int) = uwrap16 (getReg s r) ∧ fetch (jumpTo t a) = .ok w ∧
      (a = s.pc + 1 → fetch t = .ok w) :=
  ⟨BitVec.ofInt 16 (storedValue s r), toNat_storedValue s r, h.fetch_eq ha rfl rfl,
    fun hnext => h.fetch_eq ha rfl (h.pc.trans hnext.symm)⟩

/-- R42: memory is as the jump found it, so the fetch reads the word at the target. -/
theorem fetch_jumpTo {a : Int} (h : inRange a) (s : State) :
    fetch (jumpTo s a) = .ok (s.mem.readWord a.toNat) := fetch_inRange (s := jumpTo s a) h

/-- Settles O7: the three stores share `PutsRegAt`, the two jumps `jumpTo`. -/
theorem storesAndJumpsReachTheNextFetch : Obligations.StoresAndJumpsReachTheNextFetch := by
  unfold Obligations.StoresAndJumpsReachTheNextFetch
  intro fetched
  refine ⟨fun s r addr ha => ?store, fun s rs ra ha => ⟨?storei, ?pushn⟩,
    fun s addr ha => ⟨completes_of_effect (.jump addr) (fetch_jumpTo ha s),
      completes_of_effect (.jumpi addr) (fetch_jumpTo ha s)⟩⟩
  case store => exact completes_imp (completes_store ha r) fun t ht => ht.exists_fetch_eq ha
  case storei => exact completes_imp (completes_storei ha rs) fun t ht => ht.exists_fetch_eq ha
  case pushn => exact completes_imp (completes_pushn ha rs) fun t ht => ht.exists_fetch_eq ha

end Sys2Proof.Proofs
end

section
/-! The canonical form of the memory list (spec/20_memory.md R30, R31): a canonical list is its readings, so equal readings make equal lists. -/

namespace Sys2Proof.Proofs

open Sys2Proof.Machine Sys2Proof.Laws

/-- A reading other than the unlisted value comes from a cell of the list. -/
theorem mem_of_readByte_ne {m : Memory} {a : Nat} (h : m.readByte a ≠ Memory.unlisted) :
    (a, m.readByte a) ∈ m := by
  induction m with
  | nil => exact absurd rfl h
  | cons c m ih =>
    obtain ⟨b, v⟩ := c
    by_cases hb : b = a
    · simp [Memory.readByte, hb]
    · simp only [Memory.readByte, if_neg hb] at h ⊢
      exact List.mem_cons_of_mem _ (ih h)

/-- In a list with rising addresses no cell is hidden by an earlier one. -/
theorem readByte_of_mem {m : Memory} (hm : m.Pairwise fun c d => c.1 < d.1) {c : Host.Cell}
    (hc : c ∈ m) : m.readByte c.1 = c.2 := by
  induction m with
  | nil => cases hc
  | cons d m ih =>
    obtain ⟨hd, hm⟩ := List.pairwise_cons.mp hm
    obtain rfl | hc := List.mem_cons.mp hc
    · exact if_pos rfl
    · exact (if_neg (hd c hc).ne).trans (ih hm hc)

/-- The cells of a canonical memory are its readings other than the unlisted value. -/
theorem mem_iff_readByte {m : Memory} (hm : m.wf) (c : Host.Cell) :
    c ∈ m ↔ m.readByte c.1 = c.2 ∧ c.2 ≠ Memory.unlisted := by
  obtain ⟨hrising, hlisted⟩ := hm
  constructor
  · exact fun hc => ⟨readByte_of_mem hrising hc, (hlisted c hc).1⟩
  · rintro ⟨hread, hne⟩
    have hmem := mem_of_readByte_ne (m := m) (a := c.1) (hread ▸ hne)
    rwa [hread] at hmem

/-- Two lists with rising addresses and the same cells are equal. -/
theorem eq_of_rising_of_mem_iff {m m' : Memory} (hm : m.Pairwise fun c d => c.1 < d.1)
    (hm' : m'.Pairwise fun c d => c.1 < d.1) (h : ∀ c, c ∈ m ↔ c ∈ m') : m = m' :=
  have : Std.Irrefl fun c d : Host.Cell => c.1 < d.1 := ⟨fun _ => lt_irrefl _⟩
  have : Std.Antisymm fun c d : Host.Cell => c.1 < d.1 := ⟨fun _ _ h h' => absurd h h'.asymm⟩
  hm.eq_of_mem_iff hm' h

/-- Settles O6: a canonical list is fixed by its cells, and those by the readings. -/
theorem canonicalMemoryIsKeptAndUnique : Obligations.CanonicalMemoryIsKeptAndUnique := by
  unfold Obligations.CanonicalMemoryIsKeptAndUnique
  refine ⟨wf_nil, fun m a w hm ha => wf_writeWord hm (Nat.lt_succ_of_le ha) w,
    fun m m' hm hm' hread => eq_of_rising_of_mem_iff hm.1 hm'.1 fun c => ?_⟩
  rw [mem_iff_readByte hm, mem_iff_readByte hm', hread]

end Sys2Proof.Proofs
end

section
/-! Decoding and encoding undo each other (spec/30_encoding.md R60, R61, R64, R68): a well-formed instruction and its word are made of the same four nibbles. -/

namespace Sys2Proof.Proofs

open Sys2Proof.Laws

/-! ## Bytes and their two nibbles -/

theorem extractLsb'_high_byte (c d : BitVec 4) : (byte c d).extractLsb' 4 4 = c :=
  BitVec.extractLsb'_append_eq_left

theorem extractLsb'_low_byte (c d : BitVec 4) : (byte c d).extractLsb' 0 4 = d :=
  BitVec.extractLsb'_append_eq_right

theorem append_byte_eq_ofNibbles (a b c d : BitVec 4) :
    (a ++ b ++ byte c d : Word) = ofNibbles a b c d := by
  rw [append_byte, extractLsb'_high_byte, extractLsb'_low_byte]

theorem byte_append_eq_ofNibbles (a b c d : BitVec 4) :
    (a ++ byte b c ++ d : Word) = ofNibbles a b c d := by
  rw [byte_append, extractLsb'_high_byte, extractLsb'_low_byte]

/-- R54: an address is what some two nibbles yield. -/
theorem exists_byte_toNat_eq {addr : Int} (h : isAddr addr = true) :
    ∃ c d : BitVec 4, ((byte c d).toNat : Int) = addr :=
  ⟨_, _, by rw [byte, ← byte_eq_append, toNat_ofInt_byte h]⟩

/-- R55: a number is what some two nibbles yield. -/
theorem exists_byte_toInt_eq {n : Int} (h : isImm n = true) :
    ∃ c d : BitVec 4, (byte c d).toInt = n :=
  ⟨_, _, by rw [byte, ← byte_eq_append, toInt_ofInt_byte h]⟩

/-! ## From a word to its instruction and back -/

/-- R61: no bit of a word is dropped, since each field of its instruction goes back where it came
from and the bits that are no field are the row's. -/
theorem encode_byNibbles (a b c d : BitVec 4) : encode (byNibbles a b c d) = ofNibbles a b c d := by
  unfold byNibbles
  rcases nibble_cases a with h | h | h | h | h | h | h | h | h | h | h | h | h | h | h | h <;>
    subst h
  all_goals simp only [BitVec.ofNat_eq_ofNat, BitVec.reduceEq, if_false, if_true]
  all_goals (repeat' split)
  all_goals simp only [encode, ofInt_byte_toNat, ofInt_byte_toInt, append_byte_eq_ofNibbles,
    byte_append_eq_ofNibbles, *] <;> rfl

/-- Settles O16: the word's nibbles are those of its instruction's encoding. -/
theorem encodeOfDecode : Obligations.EncodeOfDecode := by
  intro w
  rw [eq_ofNibbles w]
  exact ⟨_, decode_ofNibbles _ _ _ _, wellFormed_byNibbles _ _ _ _, encode_byNibbles _ _ _ _⟩

/-! ## From an instruction to its word and back -/

/-- R64: a stray word is its own `data` instruction. -/
theorem byNibbles_of_isStray {a b c d : BitVec 4} (h : isStray (ofNibbles a b c d) = true) :
    byNibbles a b c d = .data (ofNibbles a b c d) := by
  rcases (isStray_ofNibbles a b c d).mp h with ⟨rfl, hhalt, hread, hwrite, hjumpi⟩ | ⟨rfl, hlow⟩
  · simp only [byNibbles, if_true, if_neg hhalt, if_neg hread, if_neg hwrite, if_neg hjumpi]
  · have hforms : d ≠ 0#4 ∧ d ≠ 1#4 ∧ d ≠ 2#4 ∧ d ≠ 3#4 := by bv_omega
    simp [byNibbles, hforms]

/-- R63, R66: every well-formed instruction is the one of some four nibbles: its operands fill
fields, and the form is one that no earlier row claims. -/
theorem exists_byNibbles_eq {i : Instr} (h : i.wellFormed = true) :
    ∃ a b c d, byNibbles a b c d = i := by
  cases i <;> simp only [Instr.wellFormed, Bool.and_eq_true] at h
  case halt => exact ⟨0, 0, 0, 0, rfl⟩
  case read r => exact ⟨0, r, 0, 1, by simp [byNibbles]⟩
  case write r => exact ⟨0, r, 0, 2, by simp [byNibbles]⟩
  case jumpi addr =>
    obtain ⟨b, c, rfl⟩ := exists_byte_toNat_eq h
    exact ⟨0, b, c, 3, by simp [byNibbles]⟩
  case loadn r n =>
    obtain ⟨c, d, rfl⟩ := exists_byte_toInt_eq h
    exact ⟨1, r, c, d, rfl⟩
  case load r addr =>
    obtain ⟨c, d, rfl⟩ := exists_byte_toNat_eq h
    exact ⟨2, r, c, d, rfl⟩
  case store r addr =>
    obtain ⟨c, d, rfl⟩ := exists_byte_toNat_eq h
    exact ⟨3, r, c, d, rfl⟩
  case loadi rd ra => exact ⟨4, rd, ra, 0, rfl⟩
  case storei rs ra => exact ⟨4, rs, ra, 1, rfl⟩
  case popr rd ra => exact ⟨4, rd, ra, 2, rfl⟩
  case pushn rs ra => exact ⟨4, rs, ra, 3, rfl⟩
  case addn r n =>
    obtain ⟨c, d, rfl⟩ := exists_byte_toInt_eq h
    exact ⟨5, r, c, d, rfl⟩
  case nop => exact ⟨6, 0, 0, 0, rfl⟩
  case mov rd rs => exact ⟨6, rd, rs, 0, by simpa [byNibbles, imp_iff_not_or] using h⟩
  case add rd rx ry => exact ⟨6, rd, rx, ry, by simp_all [byNibbles]⟩
  case neg rd rx => exact ⟨7, rd, 0, rx, rfl⟩
  case sub rd rx ry => exact ⟨7, rd, rx, ry, by simp_all [byNibbles]⟩
  case mul rd rx ry => exact ⟨8, rd, rx, ry, rfl⟩
  case div rd rx ry => exact ⟨9, rd, rx, ry, rfl⟩
  case mod rd rx ry => exact ⟨10, rd, rx, ry, rfl⟩
  case jump addr =>
    obtain ⟨c, d, rfl⟩ := exists_byte_toNat_eq h
    exact ⟨11, 0, c, d, rfl⟩
  case call r addr =>
    obtain ⟨hr, haddr⟩ := h
    obtain ⟨c, d, rfl⟩ := exists_byte_toNat_eq haddr
    exact ⟨11, r, c, d, by simp_all [byNibbles]⟩
  case jeqz r addr =>
    obtain ⟨c, d, rfl⟩ := exists_byte_toNat_eq h
    exact ⟨12, r, c, d, rfl⟩
  case jnez r addr =>
    obtain ⟨c, d, rfl⟩ := exists_byte_toNat_eq h
    exact ⟨13, r, c, d, rfl⟩
  case jgtz r addr =>
    obtain ⟨c, d, rfl⟩ := exists_byte_toNat_eq h
    exact ⟨14, r, c, d, rfl⟩
  case jltz r addr =>
    obtain ⟨c, d, rfl⟩ := exists_byte_toNat_eq h
    exact ⟨15, r, c, d, rfl⟩
  case data w =>
    rw [eq_ofNibbles w] at h ⊢
    exact ⟨_, _, _, _, byNibbles_of_isStray h⟩

/-- Settles O15: the instruction's nibbles are those of its encoding. -/
theorem decodeOfEncode : Obligations.DecodeOfEncode := by
  intro i h
  obtain ⟨a, b, c, d, rfl⟩ := exists_byNibbles_eq h
  rw [encode_byNibbles, decode_ofNibbles]

/-- Settles O14: each word is written by its nibbles. -/
theorem specWordsDecode : Obligations.SpecWordsDecode :=
  ⟨decode_ofNibbles 0 0 0 0, decode_ofNibbles 0 15 0 1, decode_ofNibbles 0 15 15 3,
    decode_ofNibbles 1 1 8 0, decode_ofNibbles 4 2 1 2, decode_ofNibbles 6 1 2 0,
    decode_ofNibbles 6 1 2 1, decode_ofNibbles 7 3 0 4, decode_ofNibbles 11 14 1 14,
    decode_ofNibbles 13 1 0 9, decode_ofNibbles 4 1 2 15⟩

end Sys2Proof.Proofs
end

section
/-! The operand decoder field by field (spec/30_encoding.md R52 to R57). -/

namespace Sys2Proof.Proofs

open Sys2Proof.Machine Sys2Proof.Laws

theorem toNat_nibbleAt (w : Word) (c : Nat) : (nibbleAt w c).toNat = w.toNat / 2 ^ c % 16 := by
  rw [nibbleAt, BitVec.extractLsb'_toNat, Nat.shiftRight_eq_div_pow]

theorem toNat_byteAt (w : Word) (c : Nat) : (byteAt w c).toNat = w.toNat / 2 ^ c % 256 := by
  rw [byteAt, BitVec.extractLsb'_toNat, Nat.shiftRight_eq_div_pow]

theorem toInt_byteAt (w : Word) (c : Nat) :
    (byteAt w c).toInt = sext 8 ((w.toNat / 2 ^ c % 256 : Nat) : Int) := by
  rw [← sext_byte, toNat_byteAt]

/-- Settles O8: each slice as a quotient and a remainder of the word. -/
theorem fieldCodesSliceBelowTheCursor : Obligations.FieldCodesSliceBelowTheCursor := by
  intro w c fs _
  refine ⟨fun _ => rfl, fun _ => ?register, fun _ => ?unsigned, fun _ => ?signed⟩
  case register => rw [decodeFrom, toNat_nibbleAt]
  case unsigned => rw [decodeFrom, toNat_byteAt]
  case signed => rw [decodeFrom, toInt_byteAt]

theorem decodeOperands_wholeWord (w : Word) : decodeOperands w [.n] = [sext 16 w.toNat] := by
  rw [sext_word]; rfl

/-- Settles O9: the signed reading of a word is its `sext_16`. -/
theorem wholeWordFieldIsSigned : Obligations.WholeWordFieldIsSigned :=
  fun w => ⟨decodeOperands_wholeWord w, fun _ => rfl⟩

/-! ## Well-formed field strings -/

/-- The bits a field string consumes, counted by code. -/
theorem sum_width_eq_count (fs : List FieldCode) : (fs.map FieldCode.width).sum =
    4 * (fs.count .z + fs.count .r) + 8 * (fs.count .u + fs.count .s) := by
  induction fs with
  | nil => rfl
  | cons f fs ih => cases f <;> simp [FieldCode.width, ih] <;> omega

theorem fieldsOk_iff (fs : List FieldCode) : fieldsOk fs = true ↔
    (.n ∈ fs → fs = [.n]) ∧
    4 * (fs.count .z + fs.count .r) + 8 * (fs.count .u + fs.count .s) ≤ 12 := by
  rw [fieldsOk, Bool.or_eq_true, beq_iff_eq, Bool.and_eq_true, Bool.not_eq_true',
    ← Bool.not_eq_true, List.contains_iff_mem, decide_eq_true_eq, sum_width_eq_count]
  constructor
  · rintro (rfl | ⟨hn, hwidth⟩)
    · decide
    · exact ⟨fun h => absurd h hn, hwidth⟩
  · rintro ⟨hn, hwidth⟩
    by_cases h : .n ∈ fs
    · exact .inl (hn h)
    · exact .inr ⟨h, hwidth⟩

end Sys2Proof.Proofs
end

section
/-! The priority encoder as a search (spec/30_encoding.md R58, R59). -/

namespace Sys2Proof.Proofs

open Sys2Proof.Laws

theorem hits_iff (row : Row) (w : Word) : row.hits w = true ↔ w &&& row.mask = row.pattern :=
  beq_iff_eq

theorem firstMatch_eq_find? (table : List Row) (w : Word) :
    firstMatch table w = table.find? fun row => row.hits w := by
  induction table with
  | nil => rfl
  | cons row rest ih => cases h : row.hits w <;> simp [firstMatch, h, ih]

theorem mem_of_firstMatch {table : List Row} {w : Word} {row : Row}
    (h : firstMatch table w = some row) : row ∈ table :=
  List.mem_of_find?_eq_some (firstMatch_eq_find? table w ▸ h)

/-- Settles O12, by what `List.find?` finds. -/
theorem firstMatchingRowWins : Obligations.FirstMatchingRowWins := by
  intro table w
  rw [firstMatch_eq_find?]
  refine ⟨fun row => ?some, ?none⟩
  case some =>
    rw [List.find?_eq_some_iff_append]
    simp only [hits_iff, ne_eq, Bool.not_eq_true', ← Bool.not_eq_true]
    tauto
  case none => simp only [List.find?_eq_none, hits_iff, ne_eq]

/-- A word that a row of the default table is the first to match: where the row leaves a bit open it
is 1, so that no earlier and narrower row hits; but bits 15 to 12, which the `data` row alone leaves
open, are 0100, for a stray word (R64 (b)). -/
def reachedBy (row : Row) : Word := row.pattern ||| (~~~row.mask &&& 0x4FFF)

theorem encTable_reached : ∀ row ∈ Config.encTable, row.pattern &&& ~~~row.mask = 0 ∧
    firstMatch Config.encTable (reachedBy row) = some row := by decide

/-- Settles O13: every row is reached by a word of its own. -/
theorem defaultTableIsWellFormed : Obligations.DefaultTableIsWellFormed := by
  intro row hrow
  obtain ⟨hpattern, hreached⟩ := encTable_reached row hrow
  exact ⟨hpattern, (tableOk_iff _).mp tableOk_encTable row hrow, reachedBy row, hreached⟩

end Sys2Proof.Proofs
end

section
/-! Decoding and stepping under any encoding table (spec/30_encoding.md R51, R57, R65): what a row makes of a word, what a table makes of it, and when a step is refused. -/

namespace Sys2Proof.Proofs

open Sys2Proof.Machine Sys2Proof.Safety Sys2Proof.Laws

/-! ## One row -/

section
variable {row : Row} (hok : fieldsOk row.fields = true) (w : Word)
include hok

theorem decodeRow_eq_instr_iff (i : Instr) : decodeRow row w = .instr i ↔
    assemble w row.mnemonic (decodeOperands w row.fields) = some i := by
  rw [decodeRow, if_pos hok]
  split <;> simp [*]

theorem decodeRow_eq_unfit_iff : decodeRow row w = .unfit row.mnemonic ↔
    assemble w row.mnemonic (decodeOperands w row.fields) = none := by
  rw [decodeRow, if_pos hok]
  split <;> simp [*]

/-- A row with a well-formed field string gives an instruction or has operands that do not fit. -/
theorem decodeRow_cases :
    (∃ i, decodeRow row w = .instr i) ∨ decodeRow row w = .unfit row.mnemonic := by
  rcases h : assemble w row.mnemonic (decodeOperands w row.fields) with _ | i
  · exact .inr ((decodeRow_eq_unfit_iff hok w).mpr h)
  · exact .inl ⟨i, (decodeRow_eq_instr_iff hok w i).mpr h⟩

end

/-- R51, D22: the instruction is the row's mnemonic with the first values its fields yield. -/
theorem decodeRow_eq_instr_iff_fits {row : Row} (hok : fieldsOk row.fields = true)
    (hdata : row.mnemonic ≠ .data) (w : Word) (i : Instr) : decodeRow row w = .instr i ↔
    i.mnemonic = row.mnemonic ∧ i.operands <+: decodeOperands w row.fields := by
  rw [decodeRow_eq_instr_iff hok, assemble_eq_some w _ hdata]

theorem decodeRow_data {row : Row} (hok : fieldsOk row.fields = true)
    (hdata : row.mnemonic = .data) (w : Word) : decodeRow row w = .instr (.data w) := by
  rw [decodeRow_eq_instr_iff hok, hdata]; rfl

/-! ## A table -/

theorem decodeWith_of_firstMatch {table : List Row} {w : Word} {row : Row}
    (h : firstMatch table w = some row) : decodeWith table w = decodeRow row w := by
  simp only [decodeWith, h]

theorem decodeWith_of_no_match {table : List Row} {w : Word} (h : firstMatch table w = none) :
    decodeWith table w = .noMatch := by
  simp only [decodeWith, h]

/-- Everything decoding under a table that is not refused can answer. -/
theorem decodeWith_cases {table : List Row} (hok : tableOk table = true) (w : Word) :
    decodeWith table w = .noMatch ∨ (∃ i, decodeWith table w = .instr i) ∨
    ∃ m, decodeWith table w = .unfit m := by
  rcases h : firstMatch table w with _ | row
  · exact .inl (decodeWith_of_no_match h)
  · rw [decodeWith_of_firstMatch h]
    have hrow := (tableOk_iff table).mp hok row (mem_of_firstMatch h)
    rcases decodeRow_cases hrow w with hi | hu
    · exact .inr (.inl hi)
    · exact .inr (.inr ⟨_, hu⟩)

/-! ## A step -/

/-- A running step under a table that is not refused does what the fetched word makes it do (R138). -/
theorem cycle_runs {table : List Row} {s : State} {w : Word} (hok : tableOk table = true)
    (hrun : s.run = .running) (hfetch : fetch s = .ok w) : cycle table s = runWord table w s := by
  rw [cycle, if_pos hok]
  simp only [cycleOk, hrun, hfetch]

theorem runWord_of_instr {table : List Row} {w : Word} {i : Instr}
    (h : decodeWith table w = .instr i) (s : State) : runWord table w s = exec i s := by
  simp only [runWord, h]

theorem runWord_of_noMatch {table : List Row} {w : Word} (h : decodeWith table w = .noMatch)
    (s : State) : runWord table w s = .next (takeFault (.decodeFault w) s) := by
  simp only [runWord, h]

theorem runWord_of_unfit {table : List Row} {w : Word} {m : Mnemonic}
    (h : decodeWith table w = .unfit m) (s : State) :
    runWord table w s = .refused .operandsUnfit := by
  simp only [runWord, h]

/-- A table that is not refused as a whole is not refused word by word either. -/
theorem runWord_ne_illFormedTable {table : List Row} (hok : tableOk table = true) (w : Word)
    (s : State) : runWord table w s ≠ .refused .illFormedTable := by
  rcases decodeWith_cases hok w with h | ⟨i, h⟩ | ⟨m, h⟩
  · rw [runWord_of_noMatch h]; nofun
  · rw [runWord_of_instr h]
    obtain ⟨t, ht, -⟩ := exec_effect i s
    rw [ht]; nofun
  · rw [runWord_of_unfit h]; nofun

theorem cycleOk_ne_illFormedTable {table : List Row} (hok : tableOk table = true) (s : State) :
    cycleOk table s ≠ .refused .illFormedTable := by
  unfold cycleOk
  split
  · split
    · nofun
    · exact runWord_ne_illFormedTable hok _ s
  · nofun
  · nofun

theorem tableOk_eq_false_iff (table : List Row) :
    tableOk table = false ↔ ∃ row ∈ table, fieldsOk row.fields = false := by
  simp only [tableOk, List.all_eq_false, Bool.not_eq_true]

/-- Settles O10: the test on the table is the only place that answers this refusal. -/
theorem illFormedTableIsRefused : Obligations.IllFormedTableIsRefused := by
  refine ⟨fieldsOk_iff, fun table s => ?_⟩
  rw [← tableOk_eq_false_iff]
  rcases cycle_cases table s with ⟨hok, hcycle⟩ | ⟨hbad, hcycle⟩
  · rw [hcycle, hok]
    exact iff_of_false (cycleOk_ne_illFormedTable hok s) nofun
  · exact iff_of_true hcycle hbad

/-! ## Rows of another table -/

/-- R54 with U2: the low byte of the word, unsigned and signed. -/
theorem decodeOperands_reg_unsigned (w : Word) : decodeOperands w [.r, .u] =
    [((nibbleAt w 8).toNat : Int), ((w.toNat % 256 : Nat) : Int)] := by
  have h := toNat_byteAt w 0
  rw [pow_zero, Nat.div_one] at h
  rw [← h]; rfl

theorem decodeOperands_reg_signed (w : Word) : decodeOperands w [.r, .s] =
    [((nibbleAt w 8).toNat : Int), sext 8 ((w.toNat % 256 : Nat) : Int)] := by
  have h := toInt_byteAt w 0
  rw [pow_zero, Nat.div_one] at h
  rw [← h]; rfl

/-- Settles O11: `assemble` answers the instruction whose operands are the first values yielded. -/
theorem fieldsOfAnotherTableYieldTheirValues :
    Obligations.FieldsOfAnotherTableYieldTheirValues := by
  refine ⟨fun row w hok => ⟨fun hdata => decodeRow_eq_instr_iff_fits hok hdata w,
      fun hdata => ?unfit, fun hdata => decodeRow_data hok hdata w⟩,
    fun table s w row hok hrun hfetch hmatch => ⟨fun i hi => ?runs, fun hu => ?refused⟩,
    fun pattern mask w => ⟨?jump, ?loadn, ?load⟩, fun s r addr haddr => ⟨?loadFault, ?storeFault⟩⟩
  case unfit =>
    simp only [decodeRow_eq_unfit_iff hok, Option.eq_none_iff_forall_ne_some, ne_eq,
      assemble_eq_some w _ hdata]
  case runs =>
    rw [cycle_runs hok hrun hfetch, runWord_of_instr ((decodeWith_of_firstMatch hmatch).trans hi)]
  case refused =>
    rw [cycle_runs hok hrun hfetch, runWord_of_unfit ((decodeWith_of_firstMatch hmatch).trans hu)]
  case jump =>
    rw [decodeRow_eq_instr_iff_fits rfl (by simp), decodeOperands_wholeWord]
    exact ⟨rfl, List.prefix_rfl⟩
  case loadn =>
    rw [decodeRow_eq_instr_iff_fits rfl (by simp), decodeOperands_reg_unsigned]
    exact ⟨rfl, List.prefix_rfl⟩
  case load =>
    rw [decodeRow_eq_instr_iff_fits rfl (by simp), decodeOperands_reg_signed]
    exact ⟨rfl, List.prefix_rfl⟩
  case loadFault =>
    exact completes_of_effect (.badDirect _ addr haddr ⟨r, .inl rfl⟩) (faultTaken_takeFault _ s)
  case storeFault =>
    exact completes_of_effect (.badDirect _ addr haddr ⟨r, .inr rfl⟩) (faultTaken_takeFault _ s)

end Sys2Proof.Proofs
end

section
/-! The default table with and without its `data` row (spec/30_encoding.md R64, R65), and the forms that an earlier row claims (R63). -/

namespace Sys2Proof.Proofs

open Sys2Proof.Machine Sys2Proof.Safety Sys2Proof.Laws

/-- The 27th row, which every word matches. -/
def dataRow : Row := ⟨0x0000, 0x0000, .data, [.n]⟩

theorem encTable_eq_take_append : Config.encTable = Config.encTable.take 26 ++ [dataRow] := rfl

theorem tableOk_take_encTable : tableOk (Config.encTable.take 26) = true := by decide

theorem mnemonic_ne_data_of_mem_take :
    ∀ row ∈ Config.encTable.take 26, row.mnemonic ≠ .data := by decide

/-- What rows 1 to 26 match first, the default table matches first. -/
theorem decode_of_firstMatch_take {w : Word} {row : Row}
    (h : firstMatch (Config.encTable.take 26) w = some row) : decode w = decodeRow row w := by
  refine decodeWith_of_firstMatch ?_
  rw [firstMatch_eq_find?] at h ⊢
  rw [encTable_eq_take_append, List.find?_append, h, Option.some_or]

/-- What rows 1 to 26 leave is the `data` row's. -/
theorem decode_of_no_match_take {w : Word} (h : firstMatch (Config.encTable.take 26) w = none) :
    decode w = .instr (.data w) := by
  have hdata : dataRow.hits w = true := (hits_iff _ _).mpr BitVec.and_zero
  have hmatch : firstMatch Config.encTable w = some dataRow := by
    rw [firstMatch_eq_find?] at h ⊢
    rw [encTable_eq_take_append, List.find?_append, h, Option.none_or]
    exact List.find?_cons_of_pos hdata
  rw [decode, decodeWith_of_firstMatch hmatch, decodeRow_data rfl rfl]

/-- R64: the strays, described by their bits, are the words that rows 1 to 26 leave unmatched. -/
theorem isStray_iff_no_match (w : Word) :
    isStray w = true ↔ firstMatch (Config.encTable.take 26) w = none := by
  constructor
  · intro h
    have hdecode : decode w = .instr (.data w) := decodeOfEncode (.data w) h
    rcases hmatch : firstMatch (Config.encTable.take 26) w with _ | row
    · rfl
    · have hrow := mem_of_firstMatch hmatch
      have hne := mnemonic_ne_data_of_mem_take row hrow
      rw [decode_of_firstMatch_take hmatch, decodeRow_eq_instr_iff_fits
        ((tableOk_iff _).mp tableOk_take_encTable row hrow) hne] at hdecode
      obtain ⟨hmnemonic, -⟩ := hdecode
      exact absurd hmnemonic.symm hne
  · intro h
    obtain ⟨i, hdecode, hwf⟩ := exists_decode_eq w
    rw [decode_of_no_match_take h] at hdecode
    cases hdecode
    exact hwf

/-- Settles O22: the two tables part only on the words that rows 1 to 26 leave. -/
theorem tableWithoutDataRowFaultsOnStrayWords :
    Obligations.TableWithoutDataRowFaultsOnStrayWords := by
  intro s w hrun hfetch
  have hcycle := cycle_runs tableOk_take_encTable hrun hfetch
  refine ⟨fun h => ?stray, fun h => ?other⟩
  case stray =>
    have hmatch := (isStray_iff_no_match w).mp h
    refine ⟨step_runs hrun hfetch (decode_of_no_match_take hmatch), _, ?_,
      faultTaken_takeFault _ s⟩
    rw [hcycle, runWord_of_noMatch (decodeWith_of_no_match hmatch)]
  case other =>
    obtain ⟨row, hmatch⟩ := Option.ne_none_iff_exists'.mp
      (fun hnone => by simp [(isStray_iff_no_match w).mpr hnone] at h)
    obtain ⟨i, hdecode, -⟩ := exists_decode_eq w
    have hwith : decodeWith (Config.encTable.take 26) w = .instr i := by
      rw [decodeWith_of_firstMatch hmatch, ← decode_of_firstMatch_take hmatch, hdecode]
    rw [hcycle, runWord_of_instr hwith, step_runs hrun hfetch hdecode]

/-! ## Shadowed forms -/

theorem exists_exec_eq_next (i : Instr) (s : State) : ∃ t, exec i s = .next t :=
  (exec_effect i s).imp fun _ h => h.1

theorem exec_add_r0 (s : State) (rd rx : Reg) : exec (.add rd rx 0) s = exec (.mov rd rx) s := by
  simp [exec, execAdd, execMov]

theorem exec_sub_r0 (s : State) (rd rx : Reg) : exec (.sub rd 0 rx) s = exec (.neg rd rx) s := by
  simp [exec, execSub, execNeg]

theorem exec_call_r0 (s : State) (addr : Int) :
    exec (.call 0 addr) s = exec (.jump addr) s := by
  simp [exec, execCall, execJump]

theorem exec_mov_r0_r0 (s : State) : exec (.mov 0 0) s = exec .nop s := by
  simp [exec, execMov, execNop]

/-- Settles O17: r0 reads 0 and keeps nothing, so each pair of forms executes alike. -/
theorem shadowedFormsHaveTheSameEffect : Obligations.ShadowedFormsHaveTheSameEffect := by
  intro s rd rx addr
  rw [exec_add_r0, exec_sub_r0, exec_call_r0, exec_add_r0, exec_mov_r0_r0]
  simp only [and_self, exists_exec_eq_next]

end Sys2Proof.Proofs
end

section
/-! The system and input/output instructions (spec/40_system_io.md R80 to R84): each has one effect, and what that effect leaves unchanged is said operation by operation. -/

namespace Sys2Proof.Proofs

open Sys2Proof.Machine Sys2Proof.Safety Sys2Proof.Laws

/-! ## Reading and writing the ports -/

/-- Settles O40: the cursor moves first, so registers, memory and status are those of a register
write after it. -/
theorem readStoresTheInteger : Obligations.ReadStoresTheInteger := by
  unfold Obligations.ReadStoresTheInteger
  intro s r v htoken
  have hregs : WritesReg s (setReg (takeToken s) r v) r v := writesReg_setReg (takeToken s) r v
  have hmem : SameMemory s (setReg (takeToken s) r v) := sameMemory_setReg (takeToken s) r v
  have hstatus : SameStatus s (setReg (takeToken s) r v) := sameStatus_setReg (takeToken s) r v
  obtain ⟨hinput, hinPos, hout⟩ := samePorts_setReg (takeToken s) r v
  exact completes_of_effect (.readInt r v htoken)
    ⟨hregs, by simp, hinPos, hinput, hout, hmem, hstatus⟩

/-- Settles O41: the two effects of a `read` that finds no integer. -/
theorem readFaultsOnBadAndHoldsOnNone : Obligations.ReadFaultsOnBadAndHoldsOnNone := by
  unfold Obligations.ReadFaultsOnBadAndHoldsOnNone
  refine fun s r => ⟨fun hbad => ?bad, fun hnone => ?none⟩
  case bad =>
    exact completes_of_effect (.readBad r hbad) (faultTaken_takeFault_takeToken .inputFault s)
  case none => exact exec_of_effect (.hold r hnone)

/-- Settles O42: emitting appends to the output, advancing sets the pc, and neither reaches the
rest of the state. -/
theorem writeEmitsTheSignedValue : Obligations.WriteEmitsTheSignedValue := by
  unfold Obligations.WriteEmitsTheSignedValue
  intro s r
  exact completes_of_effect (.write r)
    ⟨emit_out s (getReg s r), rfl, getReg_emit s (getReg s r), fun _ => rfl, rfl, rfl,
      ⟨rfl, rfl, rfl, rfl⟩⟩

/-! ## Ending the run, and doing nothing -/

/-- The effect `halt` and `data` share (R80, R84): the run ends cleanly, and all else stays. -/
def EndsRun (s t : State) : Prop :=
  t.run = .halted ∧ t.pc = s.pc ∧ SameRegs s t ∧ SameMemory s t ∧ SamePorts s t ∧
    t.faultCause = s.faultCause ∧ t.faultInfo = s.faultInfo ∧ t.dump = s.dump

theorem endsRun_haltRun (s : State) : EndsRun s (haltRun s) :=
  ⟨rfl, rfl, getReg_haltRun s, fun _ => rfl, ⟨rfl, rfl, rfl⟩, rfl, rfl, rfl⟩

/-- Settles O37: the effect of `halt` is `haltRun`. -/
theorem haltEndsTheRun : Obligations.HaltEndsTheRun := by
  unfold Obligations.HaltEndsTheRun
  exact fun s => completes_of_effect .halt (endsRun_haltRun s)

/-- Settles O38: the effect of `data` is `haltRun` too, whatever the word. -/
theorem dataEndsTheRun : Obligations.DataEndsTheRun := by
  unfold Obligations.DataEndsTheRun
  exact fun s w => completes_of_effect (.data w) (endsRun_haltRun s)

/-- R15, R120, R121: setting the pc leaves all else. -/
theorem onlySetsPc_jumpTo (s : State) (a : Int) : OnlySetsPc s (jumpTo s a) a :=
  ⟨jumpTo_pc s a, getReg_jumpTo s a, fun _ => rfl, ⟨rfl, rfl, rfl⟩, ⟨rfl, rfl, rfl, rfl⟩⟩

/-- R15: falling through is a jump to the next word. -/
theorem onlySetsPc_advance (s : State) : OnlySetsPc s (advance s) (s.pc + 1) :=
  onlySetsPc_jumpTo s (s.pc + 1)

/-- Settles O39: the effect of `nop` is `advance`. -/
theorem nopOnlyAdvances : Obligations.NopOnlyAdvances := by
  unfold Obligations.NopOnlyAdvances
  exact fun s => completes_of_effect .nop (onlySetsPc_advance s)

end Sys2Proof.Proofs
end

section
/-! The data movement instructions (spec/41_data_movement.md R90 to R97): each has one effect, and its frame is that of the register and word writes it is made of. -/

namespace Sys2Proof.Proofs

open Sys2Proof.Machine Sys2Proof.Safety Sys2Proof.Laws

/-! ## Writing one register (R90, R91, R93) -/

/-- The common ending of every instruction with one destination register. -/
theorem onlyWritesReg_advance_setReg (s : State) (r : Reg) (v : Int) :
    OnlyWritesReg s (advance (setReg s r v)) r v :=
  ⟨writesReg_setReg s r v, by simp, sameMemory_setReg s r v, samePorts_setReg s r v,
    sameStatus_setReg s r v⟩

/-- R12: the wrap keeps a value of the register's own range. -/
theorem getReg_setReg_of_range {s : State} {r : Reg} (hr : r ≠ 0) {v : Int}
    (h : -32768 ≤ v) (h' : v ≤ 32767) : getReg (setReg s r v) r = v := by
  rw [getReg_setReg_same hr, wrap16_of_range h h']

/-- R12: a write is known up to the wrap of its value. -/
theorem onlyWritesReg_congr {s t : State} {r : Reg} {v v' : Int} (h : OnlyWritesReg s t r v)
    (hv : wrap16 v = wrap16 v') : OnlyWritesReg s t r v' := by
  obtain ⟨hwrites, hrest⟩ := h
  refine ⟨fun q => ?_, hrest⟩
  rw [hwrites q, hv]

/-- The unsigned and the signed reading of a word are one register value. -/
theorem wrap16_loadedValue_eq_wrap16_toInt (w : Word) :
    wrap16 (loadedValue w) = wrap16 w.toInt := by
  obtain ⟨hlow, hhigh⟩ := toInt_range w
  rw [wrap16_loadedValue, wrap16_of_range hlow hhigh]

/-- R32: what `load` and `loadi` do with the word they read. -/
theorem onlyWritesReg_loadedValue (s : State) (r : Reg) (w : Word) :
    OnlyWritesReg s (advance (setReg s r (loadedValue w))) r w.toInt :=
  onlyWritesReg_congr (onlyWritesReg_advance_setReg s r _) (wrap16_loadedValue_eq_wrap16_toInt w)

/-- Settles O43: the number is written through the wrap, which keeps an 8-bit number. -/
theorem loadnWritesTheConstant : Obligations.LoadnWritesTheConstant := by
  unfold Obligations.LoadnWritesTheConstant
  intro s r n
  refine completes_of_effect (.loadn r n)
    ⟨onlyWritesReg_advance_setReg s r n, fun hr hlow hhigh => ?_⟩
  rw [getReg_advance, getReg_setReg_of_range hr (by omega) (by omega)]

/-- Settles O44: the direct address is in range, so the word there is what is written. -/
theorem loadReadsTheDirectAddress : Obligations.LoadReadsTheDirectAddress := by
  unfold Obligations.LoadReadsTheDirectAddress
  exact fun s r addr h h' =>
    completes_of_effect (.load r addr ⟨h, h'⟩) (onlyWritesReg_loadedValue s r _)

/-- Settles O46: as for `load`, with the address in a register. -/
theorem loadiReadsTheComputedAddress : Obligations.LoadiReadsTheComputedAddress := by
  unfold Obligations.LoadiReadsTheComputedAddress
  exact fun s rd ra h h' =>
    completes_of_effect (.loadi rd ra ⟨h, h'⟩) (onlyWritesReg_loadedValue s rd _)

/-! ## Writing one word (R92, R94) -/

/-- R33: what goes to memory for a register is its unsigned reading. -/
theorem storesWord_storedValue (s : State) (a : Nat) (r : Reg) :
    StoresWord s (placeWord s a (BitVec.ofInt 16 (storedValue s r))) a (uwrap16 (getReg s r)) :=
  storesWord_placeWord s a (uwrap16_range _).1 (uwrap16_range _).2

/-- What `store` and `storei` have in common: the word at `a` becomes the unsigned reading of `r`,
and the machine goes on to the next word with all else as it was. -/
def OnlyStoresReg (s : State) (r : Reg) (a : Nat) (t : State) : Prop :=
  StoresWord s t a (uwrap16 (getReg s r)) ∧
    t.pc = s.pc + 1 ∧ SameRegs s t ∧ SamePorts s t ∧ SameStatus s t

theorem onlyStoresReg_advance_placeWord (s : State) (r : Reg) (a : Nat) :
    OnlyStoresReg s r a (advance (placeWord s a (BitVec.ofInt 16 (storedValue s r)))) :=
  ⟨storesWord_storedValue s a r, rfl, fun _ => rfl, ⟨rfl, rfl, rfl⟩,
    ⟨rfl, rfl, rfl, rfl⟩⟩

/-- Settles O45: a word write and an advance leave registers, ports and status alone. -/
theorem storeWritesTheDirectAddress : Obligations.StoreWritesTheDirectAddress := by
  unfold Obligations.StoreWritesTheDirectAddress
  exact fun s r addr h h' => completes_of_effect (.store r addr ⟨h, h'⟩)
    (onlyStoresReg_advance_placeWord s r addr.toNat)

/-- Settles O47: as for `store`, with the address in a register. -/
theorem storeiWritesTheComputedAddress : Obligations.StoreiWritesTheComputedAddress := by
  unfold Obligations.StoreiWritesTheComputedAddress
  exact fun s rs ra h h' => completes_of_effect (.storei rs ra ⟨h, h'⟩)
    (onlyStoresReg_advance_placeWord s rs (getReg s ra).toNat)

/-! ## Stepping the address register (R95, R96) -/

/-- Settles O48: `popr` is two register writes, and the decrement reads its register after the
first of them (D9), which for two different registers is its old value. -/
theorem poprReadsThenDecrements : Obligations.PoprReadsThenDecrements := by
  unfold Obligations.PoprReadsThenDecrements
  intro s rd ra h h'
  refine completes_of_effect (.popr rd ra _ ⟨h, h'⟩ rfl) ⟨fun q hrd hra => ?others,
    fun hne hrd => ?loaded, fun hne hra => ?stepped, fun heq hra => ?same, getReg_zero _,
    by simp, by simp [SameMemory], by simp [SamePorts], by simp [SameStatus]⟩
  case others =>
    rw [getReg_advance, getReg_setReg_of_ne hra, getReg_setReg_of_ne hrd]
  case loaded =>
    rw [getReg_advance, getReg_setReg_of_ne hne, getReg_setReg_same hrd, wrap16_loadedValue,
      indirectAddr]
  case stepped =>
    rw [getReg_advance, getReg_setReg_of_ne hne.symm,
      getReg_setReg_of_range hra (by omega) (by omega)]
  case same =>
    subst heq
    rw [getReg_advance, getReg_setReg_same hra, getReg_setReg_same hra, wrap16_loadedValue,
      indirectAddr]

/-- Settles O49: the register write comes after the word write and does not reach memory. -/
theorem pushnStoresThenIncrements : Obligations.PushnStoresThenIncrements := by
  unfold Obligations.PushnStoresThenIncrements
  intro s rs ra h h'
  refine completes_of_effect (.pushn rs ra ⟨h, h'⟩) ⟨?word, fun q hq => ?others,
    fun hra => ?stepped, getReg_zero _, by simp, samePorts_setReg _ _ _, sameStatus_setReg _ _ _⟩
  case word =>
    rw [StoresWord, advance_mem, setReg_mem]
    exact storesWord_storedValue s (getReg s ra).toNat rs
  case others => rw [getReg_advance, getReg_setReg_of_ne hq, getReg_placeWord]
  case stepped =>
    rw [getReg_advance, getReg_setReg_of_range hra (by omega) (by omega)]

/-- R33: a store leaves every other word alone. -/
theorem readWord_of_storesWord {s t : State} {a b : Nat} {v : Int} (h : StoresWord s t a v)
    (hb : b ≠ a) : t.mem.readWord b = s.mem.readWord b := by
  obtain ⟨-, hbytes⟩ := h
  rw [Memory.readWord, Memory.readWord, hbytes (2 * b) (by omega) (by omega),
    hbytes (2 * b + 1) (by omega) (by omega)]

/-- Settles O51: `popr` after `pushn`, each by its own statement; the push leaves the register one
up, and the word it then names as it was. -/
theorem pushThenPopReadsTheNextWord : Obligations.PushThenPopReadsTheNextWord := by
  unfold Obligations.PushThenPopReadsTheNextWord
  intro s rs rd ra hne hrd hra h h'
  refine completes_imp (pushnStoresThenIncrements s rs ra h (by omega)) fun t ht => ?_
  obtain ⟨hword, -, hup, -⟩ := ht
  have hra_t : getReg t ra = getReg s ra + 1 := hup hra
  have hnext : t.mem.readWord (getReg s ra + 1).toNat = s.mem.readWord (getReg s ra + 1).toNat :=
    readWord_of_storesWord hword (by rw [indirectAddr]; omega)
  refine completes_imp (poprReadsThenDecrements t rd ra (by omega) (by omega)) fun u hu => ?_
  obtain ⟨-, hloaded, hdown, -⟩ := hu
  constructor
  · rw [hloaded hne hrd, indirectAddr, hra_t, hnext]
  · rw [hdown hne hra, hra_t, add_sub_cancel_right]

/-! ## Outside memory (R97, R132) -/

/-- Settles O50: all four forms share the effect of a bad address, which takes the fault from the
state they began in. -/
theorem indirectFormsFaultOutOfRange : Obligations.IndirectFormsFaultOutOfRange := by
  unfold Obligations.IndirectFormsFaultOutOfRange
  intro s r ra hout i hi
  have hform : i = .loadi r ra ∨ i = .storei r ra ∨ i = .popr r ra ∨ i = .pushn r ra := by
    simpa using hi
  exact completes_of_effect (.badAddress i ra (not_inRange_iff.mpr hout) ⟨r, hform⟩)
    (faultTaken_takeFault _ s)

end Sys2Proof.Proofs
end

section
/-! The arithmetic instructions (spec/42_arithmetic.md R100 to R111): each writes one register through the wrap, whose bits are the exact result's, and the two division modes are told apart by the range of the modulus. -/

namespace Sys2Proof.Proofs

open Sys2Proof.Machine Sys2Proof.Safety Sys2Proof.Laws

/-! ## Exact results through the wrap (R100 to R105) -/

theorem completes_onlyWritesReg {i : Instr} {s : State} {r : Reg} {v : Int}
    (e : Effect s i (advance (setReg s r v))) : Completes i s fun t => OnlyWritesReg s t r v :=
  completes_of_effect e (onlyWritesReg_advance_setReg s r v)

/-- Settles O52: both effects are one register write. -/
theorem addnAndMovWriteOneRegister : Obligations.AddnAndMovWriteOneRegister := by
  unfold Obligations.AddnAndMovWriteOneRegister
  exact fun s rd rx n =>
    ⟨completes_onlyWritesReg (.addn rd n), completes_onlyWritesReg (.mov rd rx)⟩

/-- R103: the negation is a difference from 0. -/
theorem completes_neg (s : State) (rd rx : Reg) :
    Completes (.neg rd rx) s fun t => OnlyWritesReg s t rd (-getReg s rx) := by
  rw [← zero_sub]
  exact completes_onlyWritesReg (.neg rd rx)

/-- Settles O53: the four effects are one register write each, of a value read beforehand. -/
theorem exactResultsAreWrapped : Obligations.ExactResultsAreWrapped := by
  unfold Obligations.ExactResultsAreWrapped
  exact fun s rd rx ry =>
    ⟨completes_onlyWritesReg (.add rd rx ry), completes_neg s rd rx,
      completes_onlyWritesReg (.sub rd rx ry), completes_onlyWritesReg (.mul rd rx ry)⟩

/-! ## The low 16 bits (R108) -/

/-- R108: the wrap keeps the bits of the integer it wraps. -/
theorem ofInt16_wrap16 (v : Int) : BitVec.ofInt 16 (wrap16 v) = BitVec.ofInt 16 v :=
  BitVec.eq_of_toInt_eq (by rw [toInt_ofInt16, toInt_ofInt16, wrap16_wrap16])

theorem getReg_of_onlyWritesReg {s t : State} {r : Reg} {v : Int} (h : OnlyWritesReg s t r v)
    (hr : r ≠ 0) : getReg t r = wrap16 v := by
  obtain ⟨hwrites, -⟩ := h
  rw [hwrites r, if_pos ⟨rfl, hr⟩]

/-- R108: an instruction that writes the wrap of `v` leaves the bits of `v`. -/
theorem completes_bits {i : Instr} {s : State} {r : Reg} {v : Int} (hr : r ≠ 0)
    (h : Completes i s fun t => OnlyWritesReg s t r v) {w : Word} (hv : BitVec.ofInt 16 v = w) :
    Completes i s fun t => BitVec.ofInt 16 (getReg t r) = w :=
  completes_imp h fun t ht => by rw [getReg_of_onlyWritesReg ht hr, ofInt16_wrap16, hv]

theorem ofInt16_sub (x y : Int) :
    BitVec.ofInt 16 (x - y) = BitVec.ofInt 16 x - BitVec.ofInt 16 y := by
  rw [Int.sub_eq_add_neg, BitVec.ofInt_add, BitVec.ofInt_neg, BitVec.sub_eq_add_neg]

/-- Settles O54: the bits of the exact results of O52 and O53, since taking bits is a ring map. -/
theorem wrappedArithmeticIsModular : Obligations.WrappedArithmeticIsModular := by
  unfold Obligations.WrappedArithmeticIsModular
  intro s rd rx ry n hrd
  obtain ⟨haddn, -⟩ := addnAndMovWriteOneRegister s rd rx n
  obtain ⟨hadd, hneg, hsub, hmul⟩ := exactResultsAreWrapped s rd rx ry
  exact ⟨completes_bits hrd hadd (BitVec.ofInt_add _ _),
    completes_bits hrd haddn (BitVec.ofInt_add _ _), completes_bits hrd hsub (ofInt16_sub _ _),
    completes_bits hrd hneg BitVec.ofInt_neg, completes_bits hrd hmul (BitVec.ofInt_mul _ _)⟩

/-! ## The two division modes (R109) -/

/-- The identity both modes share, by the definition of the modulus. -/
theorem mul_fdiv_add_fmod (mode : DivMode) (a b : Int) : b * fdiv mode a b + fmod mode a b = a :=
  add_sub_cancel _ a

theorem fmod_floor (a b : Int) : fmod .floor a b = Int.fmod a b := (Int.fmod_def a b).symm

theorem fmod_trunc (a b : Int) : fmod .trunc a b = Int.tmod a b := (Int.tmod_def a b).symm

/-- The moduli of the `floor` mode: 0 or of the divisor's sign, and smaller in size. -/
def FlooredModulus (b m : Int) : Prop := (0 ≤ m ∧ m < b) ∨ (b < m ∧ m ≤ 0)

/-- R109: the identity and the range of the modulus pin the `floor` division. -/
theorem floor_eq_iff {a b : Int} (hb : b ≠ 0) (q m : Int) :
    (fdiv .floor a b = q ∧ fmod .floor a b = m) ↔ b * q + m = a ∧ FlooredModulus b m := by
  rw [fmod_floor, add_comm, FlooredModulus]
  rcases lt_or_gt_of_ne hb with hneg | hpos
  · exact (Int.fdiv_fmod_unique' hneg).trans (and_congr_right fun _ => by omega)
  · exact (Int.fdiv_fmod_unique hpos).trans (and_congr_right fun _ => by omega)

theorem flooredModulus_fmod (a : Int) {b : Int} (hb : b ≠ 0) :
    FlooredModulus b (fmod .floor a b) :=
  ((floor_eq_iff hb _ _).mp ⟨rfl, rfl⟩).2

theorem fmod_trunc_of_nonneg {a b : Int} (ha : 0 ≤ a) (hb : b ≠ 0) :
    0 ≤ fmod .trunc a b ∧ fmod .trunc a b < b.natAbs := by
  rw [fmod_trunc]
  exact ((Int.tdiv_tmod_unique ha hb).mp ⟨rfl, rfl⟩).2

theorem fmod_trunc_of_nonpos {a b : Int} (ha : a ≤ 0) (hb : b ≠ 0) :
    -b.natAbs < fmod .trunc a b ∧ fmod .trunc a b ≤ 0 := by
  rw [fmod_trunc]
  exact ((Int.tdiv_tmod_unique' ha hb).mp ⟨rfl, rfl⟩).2

theorem fmod_trunc_eq_zero_iff (a b : Int) : fmod .trunc a b = 0 ↔ b ∣ a := by
  rw [fmod_trunc, Int.dvd_iff_tmod_eq_zero]

theorem abs_fmod_lt (mode : DivMode) (a : Int) {b : Int} (hb : b ≠ 0) :
    |fmod mode a b| < |b| := by
  rw [Int.abs_eq_natAbs, Int.abs_eq_natAbs]
  cases mode with
  | floor =>
    have hrange := flooredModulus_fmod a hb
    unfold FlooredModulus at hrange
    omega
  | trunc =>
    rcases le_total 0 a with ha | ha
    · have hrange := fmod_trunc_of_nonneg ha hb
      omega
    · have hrange := fmod_trunc_of_nonpos ha hb
      omega

/-- The `trunc` remainder is a modulus of the `floor` mode where the signs agree or the division is
exact. -/
theorem flooredModulus_fmod_trunc {a b : Int} (hb : b ≠ 0)
    (h : (0 ≤ a ∧ 0 < b) ∨ (a ≤ 0 ∧ b < 0) ∨ b ∣ a) : FlooredModulus b (fmod .trunc a b) := by
  unfold FlooredModulus
  rcases h with ⟨ha, hpos⟩ | ⟨ha, hneg⟩ | hexact
  · have hrange := fmod_trunc_of_nonneg ha hb
    omega
  · have hrange := fmod_trunc_of_nonpos ha hb
    omega
  · have hzero := (fmod_trunc_eq_zero_iff a b).mpr hexact
    omega

/-- Everywhere else the `trunc` remainder has the other sign, and adding the divisor brings it into
the range of the `floor` mode. -/
theorem flooredModulus_fmod_trunc_add {a b : Int}
    (h : (a < 0 ∧ 0 < b) ∨ (0 < a ∧ b < 0)) (hinexact : ¬ b ∣ a) :
    FlooredModulus b (fmod .trunc a b + b) := by
  have hne : fmod .trunc a b ≠ 0 := mt (fmod_trunc_eq_zero_iff a b).mp hinexact
  unfold FlooredModulus
  rcases h with ⟨ha, hpos⟩ | ⟨ha, hneg⟩
  · have hrange := fmod_trunc_of_nonpos ha.le hpos.ne'
    omega
  · have hrange := fmod_trunc_of_nonneg ha.le hneg.ne
    omega

/-- Settles O57: the `floor` division is the only one with its range of moduli, so it is the `trunc`
one or its correction, whichever has a modulus in that range. -/
theorem bothDivisionModes : Obligations.BothDivisionModes := by
  unfold Obligations.BothDivisionModes
  intro a b hb
  have hfloor := flooredModulus_fmod a hb
  unfold FlooredModulus at hfloor
  have htrunc := mul_fdiv_add_fmod .trunc a b
  refine ⟨fun mode => ⟨(mul_fdiv_add_fmod mode a b).symm, abs_fmod_lt mode a hb⟩,
    fun hpos => by omega, fun hneg => by omega, fun ha => (fmod_trunc_of_nonneg ha hb).1,
    fun ha => (fmod_trunc_of_nonpos ha hb).2, fun hagree => ?agree,
    fun ⟨hsigns, hinexact⟩ => ?differ⟩
  case agree =>
    exact (floor_eq_iff hb _ _).mpr ⟨htrunc, flooredModulus_fmod_trunc hb hagree⟩
  case differ =>
    exact (floor_eq_iff hb _ _).mpr
      ⟨by linear_combination htrunc, flooredModulus_fmod_trunc_add hsigns hinexact⟩

/-! ## Dividing registers (R106, R107, R111) -/

/-- A modulus of a register's value is in the range of registers. -/
theorem wrap16_of_flooredModulus {s : State} {r : Reg} {m : Int}
    (h : FlooredModulus (getReg s r) m) : wrap16 m = m := by
  have hrange := getReg_range s r
  unfold FlooredModulus at h
  exact wrap16_of_range (by omega) (by omega)

/-- Settles O55: `Config.divMode` is `floor`, and the wrap leaves a modulus alone. -/
theorem divAndModRoundTowardMinusInfinity : Obligations.DivAndModRoundTowardMinusInfinity := by
  unfold Obligations.DivAndModRoundTowardMinusInfinity
  intro s rd rx ry hy
  have hrange := flooredModulus_fmod (getReg s rx) hy
  have hmod : Completes (.mod rd rx ry) s fun t =>
      OnlyWritesReg s t rd (fmod .floor (getReg s rx) (getReg s ry)) :=
    completes_onlyWritesReg (.mod rd rx ry hy)
  refine ⟨_, _, (mul_fdiv_add_fmod .floor (getReg s rx) (getReg s ry)).symm, hrange,
    completes_onlyWritesReg (.div rd rx ry hy), completes_imp hmod fun t ht => ⟨ht, fun hrd => ?_⟩⟩
  rw [getReg_of_onlyWritesReg ht hrd, wrap16_of_flooredModulus hrange]

/-- Settles O56: the zero test comes before the write, so the destination plays no part. -/
theorem zeroDivisorFaults : Obligations.ZeroDivisorFaults := by
  unfold Obligations.ZeroDivisorFaults
  exact fun s rd rx ry h =>
    ⟨completes_of_effect (.zeroDivisor _ ry h ⟨rd, rx, .inl rfl⟩) (faultTaken_takeFault _ s),
      completes_of_effect (.zeroDivisor _ ry h ⟨rd, rx, .inr rfl⟩) (faultTaken_takeFault _ s)⟩

end Sys2Proof.Proofs
end

section
/-! The control transfer instructions (spec/43_control_transfer.md R120 to R126): each sets the pc, `call` after one register write, and a conditional jump by what its condition says of the register. -/

namespace Sys2Proof.Proofs

open Sys2Proof.Machine Sys2Proof.Safety Sys2Proof.Laws

/-! ## Unconditional jumps (R120 to R122) -/

/-- Settles O58: both effects are `jumpTo`. -/
theorem jumpsSetOnlyThePc : Obligations.JumpsSetOnlyThePc := by
  unfold Obligations.JumpsSetOnlyThePc
  exact fun s addr =>
    ⟨completes_of_effect (.jumpi addr) (onlySetsPc_jumpTo s addr),
      completes_of_effect (.jump addr) (onlySetsPc_jumpTo s addr)⟩

/-- Settles O59: the link is a register write of the pc the call began at, and the jump after it
reaches nothing but the pc; an address of memory is within a register's range. -/
theorem callLinksItsOwnAddress : Obligations.CallLinksItsOwnAddress := by
  unfold Obligations.CallLinksItsOwnAddress
  intro s r addr
  refine completes_of_effect (.call r addr)
    ⟨writesReg_setReg s r s.pc, jumpTo_pc _ addr, sameMemory_setReg s r s.pc,
      samePorts_setReg s r s.pc, sameStatus_setReg s r s.pc, fun hr hlow hhigh => ?_⟩
  rw [getReg_jumpTo, getReg_setReg_of_range hr (by omega) (by omega)]

/-! ## Conditional jumps (R123 to R126) -/

theorem holds_eqz_iff (v : Int) : Cond.eqz.holds v = true ↔ v = 0 := beq_iff_eq

theorem holds_nez_iff (v : Int) : Cond.nez.holds v = true ↔ v ≠ 0 := bne_iff_ne

theorem holds_gtz_iff (v : Int) : Cond.gtz.holds v = true ↔ 0 < v := decide_eq_true_iff

theorem holds_ltz_iff (v : Int) : Cond.ltz.holds v = true ↔ v < 0 := decide_eq_true_iff

/-- R123 to R126: whatever its condition, a conditional jump does nothing but choose the pc; `p` is
what the condition says of the register's value. -/
theorem completes_onlySetsPc_of_branch {i : Instr} {c : Cond} {r : Reg} {addr : Int}
    (hi : branch i = some (c, r, addr)) (s : State) {p : Prop} [Decidable p]
    (hp : c.holds (getReg s r) = true ↔ p) :
    Completes i s fun t => OnlySetsPc s t (if p then addr else s.pc + 1) := by
  by_cases h : p
  case pos =>
    rw [if_pos h]
    exact completes_of_effect (.taken i c r addr (hp.mpr h) hi) (onlySetsPc_jumpTo s addr)
  case neg =>
    rw [if_neg h]
    exact completes_of_effect (.notTaken i c r addr (eq_false_of_ne_true (mt hp.mp h)) hi)
      (onlySetsPc_advance s)

/-- Settles O60: the four forms differ only in their condition. -/
theorem conditionalJumpsTestTheSignedValue : Obligations.ConditionalJumpsTestTheSignedValue := by
  unfold Obligations.ConditionalJumpsTestTheSignedValue
  exact fun s r addr =>
    ⟨completes_onlySetsPc_of_branch rfl s (holds_eqz_iff _),
      completes_onlySetsPc_of_branch rfl s (holds_gtz_iff _),
      completes_onlySetsPc_of_branch rfl s (holds_ltz_iff _),
      completes_onlySetsPc_of_branch rfl s (holds_nez_iff _)⟩

end Sys2Proof.Proofs
end

section
/-! Every step and every run answers a next state (spec/60_exceptions.md R138), and how a running step can leave Running: `halt` and `data` (R80, R84), or one fault taken (R130 to R137). -/

namespace Sys2Proof.Proofs

open Sys2Proof.Machine Sys2Proof.Safety Sys2Proof.Laws

/-! ## Answers (R138) -/

/-- Settles O18: the fetch at an address of memory is the word there. -/
theorem stepRunsTheDecodedInstruction : Obligations.StepRunsTheDecodedInstruction := by
  unfold Obligations.StepRunsTheDecodedInstruction
  exact fun s i hrun hpc hdecode _ => step_runs hrun (fetch_inRange hpc) hdecode

theorem exists_step_eq_next (s : State) : ∃ t, step s = .next t := by
  by_cases hrun : s.run = .running
  case neg => exact ⟨s, step_stopped hrun⟩
  by_cases hpc : inRange s.pc
  case neg => exact ⟨_, step_fetchFault hrun (fetch_outOfRange hpc)⟩
  obtain ⟨i, hdecode, -⟩ := exists_decode_eq (s.mem.readWord s.pc.toNat)
  rw [step_runs hrun (fetch_inRange hpc) hdecode]
  exact exists_exec_eq_next i s

/-- Settles O26, by induction on the length of the run: its first step answers and keeps the
invariant, and the rest starts from there. -/
theorem everyRunKeepsTheInvariant : Obligations.EveryRunKeepsTheInvariant := by
  unfold Obligations.EveryRunKeepsTheInvariant
  intro k
  induction k with
  | zero => exact fun s hs => ⟨s, rfl, hs⟩
  | succ k ih =>
    intro s hs
    obtain ⟨t, hstep⟩ := exists_step_eq_next s
    obtain ⟨u, hrun, hu⟩ := ih t (everyStepKeepsTheInvariant s t hs hstep)
    exact ⟨u, (run_next core k hstep).trans hrun, hu⟩

/-! ## Clean ends (R80, R84) -/

theorem halt_or_data_of_effect_halted {i : Instr} {s t : State} (hrun : s.run = .running)
    (e : Effect s i t) (ht : t.run = .halted) : i = .halt ∨ ∃ w, i = .data w := by
  cases e with
  | halt => exact .inl rfl
  | data w => exact .inr ⟨w, rfl⟩
  | popr _ _ _ _ hu => simp [hu, hrun] at ht
  | _ => simp [hrun] at ht

/-- R56, R84: the operand of `data` is the word itself. -/
theorem eq_of_decode_data {w v : Word} (h : decode w = .instr (.data v)) : v = w := by
  obtain ⟨i, hdecode, -, hencode⟩ := encodeOfDecode w
  rw [h] at hdecode
  cases hdecode
  exact hencode

/-- Settles O21: a stopped machine is unchanged, and of what a running one can do only the effects
of `halt` and `data` end in Halted. -/
theorem everyStepAnswersANextState : Obligations.EveryStepAnswersANextState := by
  unfold Obligations.EveryStepAnswersANextState
  intro s
  obtain ⟨t, hstep⟩ := exists_step_eq_next s
  refine ⟨t, hstep, fun hstopped => ?stopped, fun hrun ht => ?halted⟩
  case stopped =>
    rw [step_stopped hstopped] at hstep
    cases hstep; rfl
  case halted =>
    obtain ⟨hstopped, -⟩ | ⟨-, -, rfl⟩ | ⟨-, w, i, hfetch, hdecode, -, e⟩ := step_cases hstep
    · exact absurd hrun hstopped
    · cases ht
    · refine ⟨w, hfetch, ?_⟩
      obtain rfl | ⟨v, rfl⟩ := halt_or_data_of_effect_halted hrun e ht
      · exact .inl hdecode
      · exact .inr (eq_of_decode_data hdecode ▸ hdecode)

/-! ## Faults (R130 to R137) -/

/-- Settles O31: four effects end in Faulted, and each records its own class. -/
theorem onlyTheNamedInstructionsFault : Obligations.OnlyTheNamedInstructionsFault := by
  unfold Obligations.OnlyTheNamedInstructionsFault
  intro i s t hrun hexec ht
  cases effect_of_exec hexec with
  | badAddress _ ra h hi =>
    obtain ⟨r, hi⟩ := hi
    exact .inl ⟨r, ra, hi, by omega, rfl, rfl⟩
  | badDirect _ addr h hi =>
    obtain ⟨r, hi⟩ := hi
    have hwf : i.wellFormed = false := by
      obtain rfl | rfl := hi <;> exact decide_eq_false h
    exact .inr (.inl ⟨r, addr, hi, hwf, by omega, rfl, rfl⟩)
  | zeroDivisor _ ry h hi =>
    obtain ⟨rd, rx, hi⟩ := hi
    exact .inr (.inr (.inl ⟨rd, rx, ry, hi, h, rfl, rfl⟩))
  | readBad r h => exact .inr (.inr (.inr ⟨r, rfl, h, rfl, rfl⟩))
  | popr _ _ _ _ hu => simp [hu, hrun] at ht
  | _ => simp [hrun] at ht

/-- R136, R137: `t` is `s` with one fault taken; the cursor moves for the input fault alone. -/
def FaultedPrecisely (s t : State) : Prop :=
  ∃ f, FaultTaken s t f (if f = .inputFault then s.inPos + 1 else s.inPos)

theorem faultedPrecisely_takeFault {f : FaultClass} (hf : f ≠ .inputFault) (s : State) :
    FaultedPrecisely s (takeFault f s) := by
  refine ⟨f, ?_⟩
  rw [if_neg hf]
  exact faultTaken_takeFault f s

/-- R134: the `Bad` token is taken with the fault. -/
theorem faultedPrecisely_inputFault (s : State) :
    FaultedPrecisely s (takeFault .inputFault (takeToken s)) :=
  ⟨.inputFault, faultTaken_takeFault_takeToken .inputFault s⟩

theorem faultedPrecisely_of_effect {i : Instr} {s t : State} (hrun : s.run = .running)
    (e : Effect s i t) (ht : t.run = .faulted) : FaultedPrecisely s t := by
  cases e with
  | badDirect | badAddress | zeroDivisor => exact faultedPrecisely_takeFault (by simp) s
  | readBad => exact faultedPrecisely_inputFault s
  | popr _ _ _ _ hu => simp [hu, hrun] at ht
  | _ => simp [hrun] at ht

/-- Settles O30: the fetch's own fault, or that of the instruction fetched. -/
theorem faultsArePrecise : Obligations.FaultsArePrecise := by
  unfold Obligations.FaultsArePrecise
  intro s t hrun hstep ht
  obtain ⟨hstopped, -⟩ | ⟨-, -, rfl⟩ | ⟨-, w, i, -, -, -, e⟩ := step_cases hstep
  · exact absurd hrun hstopped
  · exact faultedPrecisely_takeFault (by simp) s
  · exact faultedPrecisely_of_effect hrun e ht

/-- Settles O23: where no row matches there is nothing to execute, and the fault records the word. -/
theorem unmatchedWordRaisesDecodeFault : Obligations.UnmatchedWordRaisesDecodeFault := by
  unfold Obligations.UnmatchedWordRaisesDecodeFault
  intro table s w hrun hfetch hok hmiss
  have hmatch : firstMatch table w = none := (firstMatchingRowWins table w).2.mpr hmiss
  refine ⟨_, ?_, faultTaken_takeFault (.decodeFault w) s⟩
  rw [cycle_runs ((tableOk_iff table).mpr hok) hrun hfetch,
    runWord_of_noMatch (decodeWith_of_no_match hmatch)]

end Sys2Proof.Proofs
end

section
/-! The dump record (spec/60_exceptions.md R141): every register and every word is found at its place. -/

namespace Sys2Proof.Proofs

open Sys2Proof.Machine Sys2Proof.Safety Sys2Proof.Laws

theorem getElem?_map_range {α : Type} (f : Nat → α) {n i : Nat} (h : i < n) :
    ((List.range n).map f)[i]? = some (f i) := by
  rw [List.getElem?_map, List.getElem?_range h, Option.map_some]

/-- D17: register k is listed at place k - 1. -/
theorem dumpRecord_regs_getElem? (s : State) {k : Reg} (hk : k ≠ 0) :
    (dumpRecord s).regs[k.toNat - 1]? = some (getReg s k) := by
  have hplace : k.toNat - 1 < 15 := by omega
  have hreg : BitVec.ofNat 4 (k.toNat - 1 + 1) = k := by bv_omega
  rw [dumpRecord, getElem?_map_range _ hplace, hreg]

/-- R141: row k holds addresses 16k to 16k + 15. -/
theorem dumpRecord_rows_getElem? (s : State) {k : Nat} (hk : k < 16) : (dumpRecord s).rows[k]? =
    some ((List.range 16).map fun j => (s.mem.readWord (16 * k + j)).toNat) :=
  getElem?_map_range _ hk

theorem length_of_mem_dumpRecord_rows {s : State} {row : List Nat}
    (h : row ∈ (dumpRecord s).rows) : row.length = 16 := by
  obtain ⟨k, -, rfl⟩ := List.mem_map.mp h
  rw [List.length_map, List.length_range]

/-- Settles O36: the two lists are read off place by place. -/
theorem dumpRecordHoldsTheWholeState : Obligations.DumpRecordHoldsTheWholeState := by
  unfold Obligations.DumpRecordHoldsTheWholeState
  refine fun s => ⟨rfl, rfl, fun k hk => dumpRecord_regs_getElem? s hk, rfl,
    fun row h => length_of_mem_dumpRecord_rows h, fun k j hk hj => ?_⟩
  rw [dumpRecord_rows_getElem? s hk, Option.bind_some, getElem?_map_range _ hj]

end Sys2Proof.Proofs
end

section
/-! The start of a run (spec/70_reset_and_hazards.md R160, R161; spec/60_exceptions.md R135): the image loaded into zeroed memory, every other field as after reset, and no start at all where the premise is broken. -/

namespace Sys2Proof.Proofs

open Sys2Proof.Machine Sys2Proof.Safety Sys2Proof.Laws

/-! ## Loading (R160) -/

theorem readWord_loadFrom_of_lt (ws : List Word) {m : Memory} {a b : Nat} (h : b < a) :
    (loadFrom m a ws).readWord b = m.readWord b := by
  induction ws generalizing m a with
  | nil => rfl
  | cons w ws ih =>
    calc (loadFrom (m.writeWord a w) (a + 1) ws).readWord b
        = (m.writeWord a w).readWord b := ih (Nat.lt_add_right 1 h)
      _ = m.readWord b := by rw [readWord_writeWord, if_neg (Nat.ne_of_lt h)]

/-- R160: word k of the image stands at address a + k; past its end memory is as before. -/
theorem readWord_loadFrom_add (ws : List Word) (m : Memory) (a k : Nat) :
    (loadFrom m a ws).readWord (a + k) = ws.getD k (m.readWord (a + k)) := by
  induction ws generalizing m a k with
  | nil => rfl
  | cons w ws ih =>
    rw [loadFrom]
    cases k with
    | zero =>
      calc (loadFrom (m.writeWord a w) (a + 1) ws).readWord a
          = (m.writeWord a w).readWord a := readWord_loadFrom_of_lt ws (Nat.lt_add_one a)
        _ = w := by rw [readWord_writeWord, if_pos rfl]
    | succ k =>
      have hplace : a + (k + 1) = a + 1 + k := by omega
      rw [hplace, ih, readWord_writeWord, if_neg (by omega), List.getD_cons_succ]

theorem wf_loadFrom (ws : List Word) {m : Memory} {a : Nat} (hm : m.wf)
    (ha : a + ws.length ≤ Config.memWords) : (loadFrom m a ws).wf := by
  induction ws generalizing m a with
  | nil => exact hm
  | cons w ws ih =>
    rw [List.length_cons] at ha
    exact ih (wf_writeWord hm (by omega) w) (by omega)

/-! ## The machine at the start of a run (R28, R160) -/

/-- R28, D8: r1 to r15 start at 0 as r0 does. -/
theorem getReg_reset (q : Reg) : getReg State.reset q = 0 := by
  unfold getReg
  split
  · rfl
  · simp [State.reset, Config.regReset]

theorem getReg_initialise (words : List Word) (q : Reg) : getReg (initialise words) q = 0 :=
  (getReg_congr rfl q).trans (getReg_reset q)

theorem readWord_initialise (words : List Word) (a : Nat) :
    (initialise words).mem.readWord a = words.getD a 0 := by
  have h := readWord_loadFrom_add words [] 0 a
  rwa [Nat.zero_add, readWord_nil] at h

/-- While Running no dump of the memory has been taken, so canonical memory may replace it. -/
theorem invariant_withMemory {s : State} (hs : Invariant s) (hrun : s.run = .running) {m : Memory}
    (hm : m.wf) : Invariant { s with mem := m } :=
  { memory := hm
    pc := hs.pc
    haltedPc := hs.haltedPc
    output := hs.output
    cursor := hs.cursor
    unfaulted := hs.unfaulted
    faulted := fun hf => by simp [hrun] at hf }

theorem invariant_initialise {words : List Word} (h : words.length ≤ Config.memWords) :
    Invariant (initialise words) :=
  invariant_withMemory invariantHoldsAtReset rfl (wf_loadFrom words wf_nil (by omega))

/-! ## The launch (R161) -/

theorem launch_image {words : List Word} (h : words.length ≤ Config.memWords) :
    launch (.image words words.length) = .next (initialise words) :=
  if_pos ⟨h, rfl⟩

/-- D15: a broken premise is refused. -/
theorem launch_refused {words : List Word} {n : Nat}
    (h : Config.memWords < n ∨ n ≠ words.length) :
    launch (.image words n) = .refused .launchPremise :=
  if_neg fun ⟨hle, heq⟩ => h.elim (Nat.not_lt.mpr hle) (absurd heq)

/-- Settles O28: where the premise holds the machine is `initialise words`, whose memory is read off
the load and whose other fields are those of reset. -/
theorem launchLoadsTheImage : Obligations.LaunchLoadsTheImage := by
  unfold Obligations.LaunchLoadsTheImage
  exact ⟨fun words hlen => ⟨initialise words, launch_image hlen, invariant_initialise hlen,
    readWord_initialise words, rfl, rfl, getReg_initialise words, rfl, rfl, rfl, rfl, rfl, rfl⟩,
    fun words n h => launch_refused h, rfl⟩

end Sys2Proof.Proofs
end
